-- ==== Sys2Proof/Word.lean ====
section
/-! DEFINITION. The widths of CHIP8-CORE (spec/00_scope.md R7, R9, R10): bytes, 16-bit words, and the
index of one of the sixteen V registers. -/

namespace Sys2Proof

/-- One memory cell, one V register, one timer: 8 bits (R7). -/
abbrev Byte := BitVec 8

/-- pc, I, a stack entry, an instruction word: 16 bits (R7, R61). -/
abbrev Word := BitVec 16

/-- One of the four 4-bit fields of an instruction word (R64). -/
abbrev Nibble := BitVec 4

/-- "index 0-15": the index of a V register (R17). -/
abbrev RegIdx := Fin 16

end Sys2Proof
end

