-- ==== Sys2Proof/Config.lean ====
section
/-! DEFINITION. What is fixed for one core (spec/00_scope.md R7), the default FONT (spec/10_state.md R37),
and the free values: the OPEN parameters LEGACY and INDEX_OVF_FLAG (R31, R32) and the host's inputs of a
Step, tick_due and rnd (R36, R40). A free value is an opaque constant with no body: nothing can be proved
of which value it has. -/

namespace Sys2Proof.Config

/-- MEM_SIZE (R7): one address space of 4096 bytes. -/
abbrev memSize : Nat := 4096

/-- PROG_START (R7): where Load puts a program, and the pc after Reset. -/
abbrev progStart : Nat := 0x200

/-- PROG_MAX = MEM_SIZE - PROG_START (R7, R56). -/
abbrev progMax : Nat := 3584

/-- FONT_GLYPHS x FONT_STRIDE (R7). -/
abbrev fontSize : Nat := 80

/-- The default value of the parameter FONT (R37): the glyphs 0 to F, five rows each.
PRESUMED by the spec itself (92_eei_decisions.md D4, 93_implementation_defined.md G4); assumption log 4. -/
def defaultFont : Vector Byte 80 := #v[
  0xF0, 0x90, 0x90, 0x90, 0xF0,  0x20, 0x60, 0x20, 0x20, 0x70,
  0xF0, 0x10, 0xF0, 0x80, 0xF0,  0xF0, 0x10, 0xF0, 0x10, 0xF0,
  0x90, 0x90, 0xF0, 0x10, 0x10,  0xF0, 0x80, 0xF0, 0x10, 0xF0,
  0xF0, 0x80, 0xF0, 0x90, 0xF0,  0xF0, 0x10, 0x20, 0x40, 0x40,
  0xF0, 0x90, 0xF0, 0x90, 0xF0,  0xF0, 0x90, 0xF0, 0x10, 0xF0,
  0xF0, 0x90, 0xF0, 0x90, 0x90,  0xE0, 0x90, 0xE0, 0x90, 0xE0,
  0xF0, 0x80, 0x80, 0x80, 0xF0,  0xE0, 0x90, 0x90, 0x90, 0xE0,
  0xF0, 0x80, 0xF0, 0x80, 0xF0,  0xF0, 0x80, 0xF0, 0x80, 0x80]

/-- The OPEN parameter LEGACY (R31; 92 D8) as it stands when a run begins at `State.reset`: a free value.
DESIGN CHOICE, assumption log 3. -/
opaque legacy : Bool

/-- The OPEN parameter INDEX_OVF_FLAG (R32; 92 D9) as it stands when a run begins at `State.reset`: a free
value. DESIGN CHOICE, assumption log 3. -/
opaque indexOvfFlag : Bool

/-- The input tick_due of the n-th Step the host issues on its own account (R36, R126): a free value, so a
claim holds for every tick schedule. DESIGN CHOICE, assumption log 2. -/
opaque tickDue : Nat → Bool

/-- The input rnd of the n-th Step the host issues on its own account (R36, R100): a free value, "a draw
under no law". DESIGN CHOICE, assumption log 2. -/
opaque rnd : Nat → Byte

end Sys2Proof.Config
end

