-- ==== Sys2Proof/Syntax.lean ====
section
/-! DEFINITION. The 34 instructions of CHIP8-CORE (spec/30_encoding.md R68, opcode_table.json), one
constructor per row, in the table's order. Operands are the fields of R64: a register index X or Y, a byte
NN, an address NNN (already zero-extended to 16 bits, R65) and a row count N. Don't-care bits (R67) are no
operands. -/

namespace Sys2Proof

inductive Instr where
  /-- CLS, 00E0 (R76). -/
  | cls
  /-- RET, 00EE (R77). -/
  | ret
  /-- JP NNN, 1NNN (R78). -/
  | jp (nnn : Word)
  /-- CALL NNN, 2NNN (R79). -/
  | call (nnn : Word)
  /-- SE Vx, NN, 3XNN (R80). -/
  | seImm (x : RegIdx) (nn : Byte)
  /-- SNE Vx, NN, 4XNN (R81). -/
  | sneImm (x : RegIdx) (nn : Byte)
  /-- SE Vx, Vy, 5XY0 (R82). -/
  | seReg (x y : RegIdx)
  /-- LD Vx, NN, 6XNN (R89). -/
  | ldImm (x : RegIdx) (nn : Byte)
  /-- ADD Vx, NN, 7XNN (R90). -/
  | addImm (x : RegIdx) (nn : Byte)
  /-- LD Vx, Vy, 8XY0 (R91). -/
  | ldReg (x y : RegIdx)
  /-- OR Vx, Vy, 8XY1 (R92). -/
  | orReg (x y : RegIdx)
  /-- AND Vx, Vy, 8XY2 (R93). -/
  | andReg (x y : RegIdx)
  /-- XOR Vx, Vy, 8XY3 (R94). -/
  | xorReg (x y : RegIdx)
  /-- ADD Vx, Vy, 8XY4 (R95). -/
  | addReg (x y : RegIdx)
  /-- SUB Vx, Vy, 8XY5 (R96). -/
  | sub (x y : RegIdx)
  /-- SHR Vx, Vy, 8XY6 (R97). -/
  | shr (x y : RegIdx)
  /-- SUBN Vx, Vy, 8XY7 (R98). -/
  | subn (x y : RegIdx)
  /-- SHL Vx, Vy, 8XYE (R99). -/
  | shl (x y : RegIdx)
  /-- SNE Vx, Vy, 9XY0 (R83). -/
  | sneReg (x y : RegIdx)
  /-- LD I, NNN, ANNN (R107). -/
  | ldI (nnn : Word)
  /-- JP V0, NNN, BNNN (R84). -/
  | jpV0 (nnn : Word)
  /-- RND Vx, NN, CXNN (R100). -/
  | rnd (x : RegIdx) (nn : Byte)
  /-- DRW Vx, Vy, N, DXYN (R102). -/
  | drw (x y : RegIdx) (n : Nat)
  /-- SKP Vx, EX9E (R103). -/
  | skp (x : RegIdx)
  /-- SKNP Vx, EXA1 (R104). -/
  | sknp (x : RegIdx)
  /-- LD Vx, DT, FX07 (R108). -/
  | ldVxDt (x : RegIdx)
  /-- LD Vx, K, FX0A (R105). -/
  | ldK (x : RegIdx)
  /-- LD DT, Vx, FX15 (R109). -/
  | ldDtVx (x : RegIdx)
  /-- LD ST, Vx, FX18 (R110). -/
  | ldStVx (x : RegIdx)
  /-- ADD I, Vx, FX1E (R111). -/
  | addI (x : RegIdx)
  /-- LD F, Vx, FX29 (R112). -/
  | ldF (x : RegIdx)
  /-- LD B, Vx, FX33 (R113). -/
  | ldB (x : RegIdx)
  /-- LD [I], Vx, FX55 (R114). -/
  | ldMemVx (x : RegIdx)
  /-- LD Vx, [I], FX65 (R115). -/
  | ldVxMem (x : RegIdx)
  deriving DecidableEq, Repr

end Sys2Proof
end

