-- ==== Sys2Proof/WellFormed.lean ====
section
/-! DEFINITION. Which instructions can be encoded (spec/30_encoding.md R74): "An NNN above 0xFFF, an NN above
0xFF or an N above 0xF does not fit, and the assembler refuses it." X, Y and NN fit by their types. -/

namespace Sys2Proof

/-- NNN fits its 12-bit field (R64). -/
def addrFits (nnn : Word) : Bool := decide (nnn.toNat ≤ 0xFFF)

/-- N fits its 4-bit field (R64). -/
def rowsFit (n : Nat) : Bool := decide (n ≤ 0xF)

/-- The operands of the instruction fit their fields (R74). -/
def Instr.wf : Instr → Bool
  | .jp nnn => addrFits nnn
  | .call nnn => addrFits nnn
  | .ldI nnn => addrFits nnn
  | .jpV0 nnn => addrFits nnn
  | .drw _ _ n => rowsFit n
  | .cls | .ret | .seImm _ _ | .sneImm _ _ | .seReg _ _ | .ldImm _ _ | .addImm _ _ | .ldReg _ _
  | .orReg _ _ | .andReg _ _ | .xorReg _ _ | .addReg _ _ | .sub _ _ | .shr _ _ | .subn _ _ | .shl _ _
  | .sneReg _ _ | .rnd _ _ | .skp _ | .sknp _ | .ldVxDt _ | .ldK _ | .ldDtVx _ | .ldStVx _ | .addI _
  | .ldF _ | .ldB _ | .ldMemVx _ | .ldVxMem _ => true

end Sys2Proof
end

