-- ==== Sys2Proof/Decode.lean ====
section
/-! DEFINITION. Decoding and encoding (spec/30_encoding.md). The decoder is total on any bytes: it reads two
bytes big-endian (R61, R63), dispatches on the family and then on the sub-opcode (R66), and rejects by name.
The encoder is written from the same table (R68, R74). `opcodeMap` is the table of R68 itself, row by row. -/

namespace Sys2Proof

/-- Why bytes are no instruction. -/
inductive DecodeError where
  /-- Fewer than the two bytes every instruction takes (R61). -/
  | truncated
  /-- The word matches no row of the opcode map (R69). -/
  | unknownOpcode (w : Word)
  deriving DecidableEq, Repr

/-! ### Fields of an instruction word (R64) -/

/-- op = w[15:12], the family. -/
def opField (w : Word) : Nibble := w.extractLsb' 12 4

/-- X = w[11:8]. -/
def xField (w : Word) : RegIdx := (w.extractLsb' 8 4).toFin

/-- Y = w[7:4]. -/
def yField (w : Word) : RegIdx := (w.extractLsb' 4 4).toFin

/-- N = w[3:0]. -/
def nField (w : Word) : Nibble := w.extractLsb' 0 4

/-- NN = w[7:0]. -/
def nnField (w : Word) : Byte := w.extractLsb' 0 8

/-- NNN = w[11:0], zero-extended to 16 bits (R65). -/
def nnnField (w : Word) : Word := (w.extractLsb' 0 12).setWidth 16

/-! ### Dispatch (R66, R68) -/

/-- Family 0x0 selects on NN; X is don't-care (R67). -/
def decodeFamily0 (w : Word) : Except DecodeError Instr :=
  match nnField w with
  | 0xE0#8 => .ok .cls
  | 0xEE#8 => .ok .ret
  | _ => .error (.unknownOpcode w)

/-- Family 0x8 selects on N. -/
def decodeFamily8 (w : Word) : Except DecodeError Instr :=
  match nField w with
  | 0x0#4 => .ok (.ldReg (xField w) (yField w))
  | 0x1#4 => .ok (.orReg (xField w) (yField w))
  | 0x2#4 => .ok (.andReg (xField w) (yField w))
  | 0x3#4 => .ok (.xorReg (xField w) (yField w))
  | 0x4#4 => .ok (.addReg (xField w) (yField w))
  | 0x5#4 => .ok (.sub (xField w) (yField w))
  | 0x6#4 => .ok (.shr (xField w) (yField w))
  | 0x7#4 => .ok (.subn (xField w) (yField w))
  | 0xE#4 => .ok (.shl (xField w) (yField w))
  | _ => .error (.unknownOpcode w)

/-- Family 0xE selects on NN. -/
def decodeFamilyE (w : Word) : Except DecodeError Instr :=
  match nnField w with
  | 0x9E#8 => .ok (.skp (xField w))
  | 0xA1#8 => .ok (.sknp (xField w))
  | _ => .error (.unknownOpcode w)

/-- Family 0xF selects on NN. -/
def decodeFamilyF (w : Word) : Except DecodeError Instr :=
  match nnField w with
  | 0x07#8 => .ok (.ldVxDt (xField w))
  | 0x0A#8 => .ok (.ldK (xField w))
  | 0x15#8 => .ok (.ldDtVx (xField w))
  | 0x18#8 => .ok (.ldStVx (xField w))
  | 0x1E#8 => .ok (.addI (xField w))
  | 0x29#8 => .ok (.ldF (xField w))
  | 0x33#8 => .ok (.ldB (xField w))
  | 0x55#8 => .ok (.ldMemVx (xField w))
  | 0x65#8 => .ok (.ldVxMem (xField w))
  | _ => .error (.unknownOpcode w)

/-- The instruction a word stands for, or the unknown opcode it is (R66, R69, R71). In families 0x5 and 0x9
N is don't-care (R67). -/
def decodeWord (w : Word) : Except DecodeError Instr :=
  match opField w with
  | 0x0#4 => decodeFamily0 w
  | 0x1#4 => .ok (.jp (nnnField w))
  | 0x2#4 => .ok (.call (nnnField w))
  | 0x3#4 => .ok (.seImm (xField w) (nnField w))
  | 0x4#4 => .ok (.sneImm (xField w) (nnField w))
  | 0x5#4 => .ok (.seReg (xField w) (yField w))
  | 0x6#4 => .ok (.ldImm (xField w) (nnField w))
  | 0x7#4 => .ok (.addImm (xField w) (nnField w))
  | 0x8#4 => decodeFamily8 w
  | 0x9#4 => .ok (.sneReg (xField w) (yField w))
  | 0xA#4 => .ok (.ldI (nnnField w))
  | 0xB#4 => .ok (.jpV0 (nnnField w))
  | 0xC#4 => .ok (.rnd (xField w) (nnField w))
  | 0xD#4 => .ok (.drw (xField w) (yField w) (nField w).toNat)
  | 0xE#4 => decodeFamilyE w
  | 0xF#4 => decodeFamilyF w
  | _ => .error (.unknownOpcode w)

/-- The word two bytes make: the first is bits 15..8, the second bits 7..0 (R49, R63). -/
def wordOfBytes (hi lo : Byte) : Word := hi ++ lo

/-- The byte at the lower address: bits 15..8 (R49). -/
def hiByte (w : Word) : Byte := w.extractLsb' 8 8

/-- The byte at the higher address: bits 7..0 (R49). -/
def loByte (w : Word) : Byte := w.extractLsb' 0 8

/-- Decode the instruction at the head of a list of bytes, and answer the rest: always exactly two bytes are
consumed (R61). -/
def decode : List Byte → Except DecodeError (Instr × List Byte)
  | hi :: lo :: rest => (decodeWord (wordOfBytes hi lo)).map (·, rest)
  | [_] | [] => .error .truncated

/-! ### Encoding (R74): each field in the position of R64, don't-care bits 0 -/

/-- op, X, Y, N (formats F-XY and F-XYN). -/
def packXYN (op : Nibble) (x y : RegIdx) (n : Nibble) : Word :=
  op ++ (BitVec.ofFin x : Nibble) ++ (BitVec.ofFin y : Nibble) ++ n

/-- op, X, NN (formats F-XNN, F-X and F-NONE). -/
def packXNN (op : Nibble) (x : RegIdx) (nn : Byte) : Word :=
  op ++ (BitVec.ofFin x : Nibble) ++ nn

/-- op, NNN (format F-NNN). -/
def packNNN (op : Nibble) (nnn : Word) : Word := op ++ nnn.setWidth 12

/-- The word of a well-formed instruction (R68, R74). -/
def encode : Instr → Word
  | .cls => packXNN 0x0 0 0xE0
  | .ret => packXNN 0x0 0 0xEE
  | .jp nnn => packNNN 0x1 nnn
  | .call nnn => packNNN 0x2 nnn
  | .seImm x nn => packXNN 0x3 x nn
  | .sneImm x nn => packXNN 0x4 x nn
  | .seReg x y => packXYN 0x5 x y 0x0
  | .ldImm x nn => packXNN 0x6 x nn
  | .addImm x nn => packXNN 0x7 x nn
  | .ldReg x y => packXYN 0x8 x y 0x0
  | .orReg x y => packXYN 0x8 x y 0x1
  | .andReg x y => packXYN 0x8 x y 0x2
  | .xorReg x y => packXYN 0x8 x y 0x3
  | .addReg x y => packXYN 0x8 x y 0x4
  | .sub x y => packXYN 0x8 x y 0x5
  | .shr x y => packXYN 0x8 x y 0x6
  | .subn x y => packXYN 0x8 x y 0x7
  | .shl x y => packXYN 0x8 x y 0xE
  | .sneReg x y => packXYN 0x9 x y 0x0
  | .ldI nnn => packNNN 0xA nnn
  | .jpV0 nnn => packNNN 0xB nnn
  | .rnd x nn => packXNN 0xC x nn
  | .drw x y n => packXYN 0xD x y (BitVec.ofNat 4 n)
  | .skp x => packXNN 0xE x 0x9E
  | .sknp x => packXNN 0xE x 0xA1
  | .ldVxDt x => packXNN 0xF x 0x07
  | .ldK x => packXNN 0xF x 0x0A
  | .ldDtVx x => packXNN 0xF x 0x15
  | .ldStVx x => packXNN 0xF x 0x18
  | .addI x => packXNN 0xF x 0x1E
  | .ldF x => packXNN 0xF x 0x29
  | .ldB x => packXNN 0xF x 0x33
  | .ldMemVx x => packXNN 0xF x 0x55
  | .ldVxMem x => packXNN 0xF x 0x65

/-- The two bytes of an instruction as memory holds them, lower address first (R49). -/
def encodeBytes (i : Instr) : List Byte := [hiByte (encode i), loByte (encode i)]

/-- The assembler of R74: it refuses an instruction whose operand does not fit. -/
def assemble (i : Instr) : Option Word := if i.wf then some (encode i) else none

/-! ### The opcode map of R68, row by row -/

/-- One row: a word w is this row's instruction when w & mask = match. -/
structure OpcodeRow where
  pattern : Word
  mask : Word
  build : Word → Instr

/-- The 34 rows of R68, in its order. -/
def opcodeMap : List OpcodeRow :=
  [⟨0x00E0, 0xF0FF, fun _ => .cls⟩,
   ⟨0x00EE, 0xF0FF, fun _ => .ret⟩,
   ⟨0x1000, 0xF000, fun w => .jp (nnnField w)⟩,
   ⟨0x2000, 0xF000, fun w => .call (nnnField w)⟩,
   ⟨0x3000, 0xF000, fun w => .seImm (xField w) (nnField w)⟩,
   ⟨0x4000, 0xF000, fun w => .sneImm (xField w) (nnField w)⟩,
   ⟨0x5000, 0xF000, fun w => .seReg (xField w) (yField w)⟩,
   ⟨0x6000, 0xF000, fun w => .ldImm (xField w) (nnField w)⟩,
   ⟨0x7000, 0xF000, fun w => .addImm (xField w) (nnField w)⟩] ++
  [⟨0x8000, 0xF00F, fun w => .ldReg (xField w) (yField w)⟩,
   ⟨0x8001, 0xF00F, fun w => .orReg (xField w) (yField w)⟩,
   ⟨0x8002, 0xF00F, fun w => .andReg (xField w) (yField w)⟩,
   ⟨0x8003, 0xF00F, fun w => .xorReg (xField w) (yField w)⟩,
   ⟨0x8004, 0xF00F, fun w => .addReg (xField w) (yField w)⟩,
   ⟨0x8005, 0xF00F, fun w => .sub (xField w) (yField w)⟩,
   ⟨0x8006, 0xF00F, fun w => .shr (xField w) (yField w)⟩,
   ⟨0x8007, 0xF00F, fun w => .subn (xField w) (yField w)⟩,
   ⟨0x800E, 0xF00F, fun w => .shl (xField w) (yField w)⟩] ++
  [⟨0x9000, 0xF000, fun w => .sneReg (xField w) (yField w)⟩,
   ⟨0xA000, 0xF000, fun w => .ldI (nnnField w)⟩,
   ⟨0xB000, 0xF000, fun w => .jpV0 (nnnField w)⟩,
   ⟨0xC000, 0xF000, fun w => .rnd (xField w) (nnField w)⟩,
   ⟨0xD000, 0xF000, fun w => .drw (xField w) (yField w) (nField w).toNat⟩,
   ⟨0xE09E, 0xF0FF, fun w => .skp (xField w)⟩,
   ⟨0xE0A1, 0xF0FF, fun w => .sknp (xField w)⟩] ++
  [⟨0xF007, 0xF0FF, fun w => .ldVxDt (xField w)⟩,
   ⟨0xF00A, 0xF0FF, fun w => .ldK (xField w)⟩,
   ⟨0xF015, 0xF0FF, fun w => .ldDtVx (xField w)⟩,
   ⟨0xF018, 0xF0FF, fun w => .ldStVx (xField w)⟩,
   ⟨0xF01E, 0xF0FF, fun w => .addI (xField w)⟩,
   ⟨0xF029, 0xF0FF, fun w => .ldF (xField w)⟩,
   ⟨0xF033, 0xF0FF, fun w => .ldB (xField w)⟩,
   ⟨0xF055, 0xF0FF, fun w => .ldMemVx (xField w)⟩,
   ⟨0xF065, 0xF0FF, fun w => .ldVxMem (xField w)⟩]

/-- The decoder that R68 writes from the table alone: "Rows are tried in order, and the first row whose
(w & mask) == match holds wins." -/
def decodeByMap (w : Word) : Except DecodeError Instr :=
  match opcodeMap.find? (fun r => w &&& r.mask == r.pattern) with
  | some r => .ok (r.build w)
  | none => .error (.unknownOpcode w)

/-! ### The opcode table's numbering -/

/-- The instruction word given as a number w of nbits bits, bit 0 the least significant: every bit above
nbits is 0, and an instruction is one 16-bit word (R61). -/
def tableWord (nbits w : Nat) : Word := BitVec.ofNat 16 (w % 2 ^ nbits)

/-- What the decoder reads from a row's word, laid out as memory stores it: the high byte at the lower
address (R49). -/
def decodeTableWord (nbits w : Nat) : Option Instr :=
  match decode [hiByte (tableWord nbits w), loByte (tableWord nbits w)] with
  | .ok (i, _) => some i
  | .error _ => none

end Sys2Proof
end

