-- ==== Sys2Proof/Machine/State.lean ====
section
/-! DEFINITION. The state of CHIP8-CORE (spec/10_state.md), the host's transactions (R40), the causes of its
fatal faults (spec/60_exceptions.md R117), and the state after Reset (R38). State is plain data: the model's
own fields (`rnd`, `configOpen`, `reply`, `stepNo`, `pending`, and `lastDiag` as a register) are marked. -/

namespace Sys2Proof.Machine

/-- Reasons for which `step` stops with a fault. There are NONE: every fault the spec names is taken, a next
state with halted = 1 (R121), and a Step of a halted core is served too (R122). See `FaultCause` for the
spec's own faults. (Safe: a machine that never stops this way forbids nothing.) -/
inductive Fault where
  deriving DecidableEq, Repr

/-- Reasons for which `step` refuses. -/
inductive Refusal where
  /-- Raised by an arm of `exec` for an instruction without a meaning; no arm is one. Safe. -/
  | notModelled (mnemonic : String)
  /-- Raised by SetConfig after the first Step: "the transaction is refused: a model has no step for it" (R45).
  Safe. -/
  | setConfigAfterFirstStep
  /-- Raised by SetKey with an index outside 0..15: "the host must not issue it and a model has no step for it"
  (R106). Safe. -/
  | setKeyOutOfRange
  deriving DecidableEq, Repr

/-- The causes of a fatal fault (R117). -/
inductive FaultCause where
  | stackOverflow
  | stackUnderflow
  | fetchRange
  | dataRange
  | keyRange
  deriving DecidableEq, Repr

/-- The outcome a Step returns, readable as last_diag (R44). -/
inductive Diag where
  | ok
  | unknownOpcode (w : Word)
  | fault (cause : FaultCause) (info : Nat)
  | halted
  deriving DecidableEq, Repr

/-- What a transaction returns to the host (R40, R41, R56, R129). -/
inductive Reply where
  /-- Reset, SetConfig, SetKey, ClearDrawFlag and Tick return nothing. -/
  | done
  /-- A Step: its outcome stands in last_diag (R44). -/
  | stepped
  /-- A Load that returned Ok (R56). -/
  | loaded
  /-- A Load that returned RomTooLarge (R56, R129). -/
  | romTooLarge
  /-- GetPixel's answer (R41). -/
  | pixel (lit : Bool)
  /-- The read outputs: draw_flag, sound_active, halted, fault_code, last_diag (R40). -/
  | outputs (drawFlag soundActive halted : Bool) (faultCode : BitVec 3) (lastDiag : Diag)
  deriving DecidableEq, Repr

/-- The transactions of R40. -/
inductive Txn where
  | reset
  | setConfig (legacy indexOvf : Bool)
  | load (bytes : List Byte)
  | setKey (k : Nat) (pressed : Bool)
  | clearDrawFlag
  | step (tickDue : Bool) (rnd : Byte)
  | tick
  | getPixel (x y : Nat)
  | readOutputs
  deriving DecidableEq, Repr

/-- mem[0..4095] (R34, R46): the bytes that differ from the contents Reset gives (`Memory.unlisted`), by
rising address. FONT, a parameter of the core (R37), stands beside them because Reset copies it to
mem[0..79]. -/
structure Memory where
  font : Vector Byte 80
  cells : List Host.Cell
  deriving DecidableEq, Repr

/-- fb[x][y]: 64 columns of 32 pixels (R28). -/
abbrev Framebuffer := Vector (Vector Bool 32) 64

structure State where
  /-- V[0..15] (R17). -/
  v : Vector Byte 16
  /-- The program counter (R20). -/
  pc : Word
  /-- The index register I (R23). -/
  i : Word
  /-- stack[0..15] (R24). -/
  stack : Vector Word 16
  /-- The number of stack entries in use, 0..16 (R25). -/
  sp : Fin 17
  /-- The delay timer DT (R26). -/
  dt : Byte
  /-- The sound timer ST (R27). -/
  st : Byte
  /-- mem[0..4095] and FONT (R34, R37). -/
  mem : Memory
  /-- The framebuffer (R28). -/
  fb : Framebuffer
  /-- The input latch key[0..15] (R33). -/
  key : Vector Bool 16
  /-- draw_flag (R29). -/
  drawFlag : Bool
  /-- halted (R30). -/
  halted : Bool
  /-- fault_code, 3 bits (R30). -/
  faultCode : BitVec 3
  /-- LEGACY (R31). -/
  legacy : Bool
  /-- INDEX_OVF_FLAG (R32). -/
  indexOvf : Bool
  /-- The output last_diag (R40, R44): the outcome of the last Step. -/
  lastDiag : Diag
  /-- MODEL'S OWN: no Step has been issued since Reset, so SetConfig is still accepted (R45). -/
  configOpen : Bool
  /-- MODEL'S OWN: what the last transaction returned to the host. -/
  reply : Reply
  /-- MODEL'S OWN: the input rnd of the Step being served (R36, R40). -/
  rnd : Byte
  /-- MODEL'S OWN: how many Steps the host issued on its own account; it numbers the free inputs. -/
  stepNo : Nat
  /-- MODEL'S OWN: transactions the host has issued and the core has not served, oldest first (R57). -/
  pending : List Txn
  deriving DecidableEq, Repr

/-- Every pixel 0 (R38). -/
def blankScreen : Framebuffer := Vector.replicate 64 (Vector.replicate 32 false)

/-- The state after Reset (R38, R131): FONT, LEGACY and INDEX_OVF_FLAG are the parameters of the run. -/
def State.afterReset (font : Vector Byte 80) (legacy indexOvf : Bool) : State where
  v := Vector.replicate 16 0
  pc := 0x0200
  i := 0
  stack := Vector.replicate 16 0
  sp := 0
  dt := 0
  st := 0
  mem := { font := font, cells := [] }
  fb := blankScreen
  key := Vector.replicate 16 false
  drawFlag := false
  halted := false
  faultCode := 0
  legacy := legacy
  indexOvf := indexOvf
  lastDiag := .ok
  configOpen := true
  reply := .done
  rnd := 0
  stepNo := 0
  pending := []

/-- The machine right after reset, with the default FONT and the OPEN parameters free. -/
def State.reset : State :=
  State.afterReset Config.defaultFont Config.legacy Config.indexOvfFlag

end Sys2Proof.Machine
end

