-- ==== Sys2Proof/Machine/Ops.lean ====
section
/-! DEFINITION. The named operations over memory, registers, stack, framebuffer, pc and timers
(spec/20_memory.md, spec/10_state.md), and taking a fault (spec/60_exceptions.md R121). Nothing returns from a
fault (R123): Reset (`resetCore`) is the only way out (R122) and stands beside it. -/

namespace Sys2Proof.Machine

/-- What a meaning answers. -/
abbrev Result := Host.Outcome State Fault Refusal

/-! ### Memory (R46 to R49) -/

/-- What an unlisted address reads as: the contents Reset gives, FONT in mem[0..79] and 0x00 above (R38). -/
def Memory.unlisted (m : Memory) (a : Nat) : Byte :=
  if h : a < 80 then m.font[a] else 0

/-- The listed byte of an address. -/
def lookupCell : List Host.Cell → Nat → Option Byte
  | [], _ => none
  | c :: cs, a => if c.1 = a then some c.2 else lookupCell cs a

/-- MemRead(a, 1) after its range check (R48): the byte at address a. -/
def Memory.read (m : Memory) (a : Nat) : Byte := (lookupCell m.cells a).getD (m.unlisted a)

/-- Put a cell into a rising list that holds no cell of its address. -/
def insertCell (c : Host.Cell) : List Host.Cell → List Host.Cell
  | [] => [c]
  | d :: ds => if c.1 < d.1 then c :: d :: ds else d :: insertCell c ds

/-- MemWrite(a, 1, b) after its range check (R48): the old entry goes, and b is listed unless it is what the
unlisted address reads as. Above the address space there is no byte to write. -/
def Memory.write (m : Memory) (a : Nat) (b : Byte) : Memory :=
  if a < Config.memSize then
    let others := m.cells.filter (fun c => c.1 != a)
    { m with cells := if b = m.unlisted a then others else insertCell (a, b) others }
  else m

/-- Store consecutive bytes from address a upward. -/
def Memory.writeList (m : Memory) (a : Nat) : List Byte → Memory
  | [] => m
  | b :: bs => (m.write a b).writeList (a + 1) bs

/-- The canonical form: addresses below MEM_SIZE and strictly rising, no entry equal to what the unlisted
address reads as. -/
def Memory.wf (m : Memory) : Bool :=
  decide (m.cells.Pairwise (fun c c' => c.1 < c'.1)) &&
    m.cells.all (fun c => decide (c.1 < Config.memSize) && decide (c.2 ≠ m.unlisted c.1))

/-- The lowest address of [base, base + count) that is outside the address space (R48, R117, R120). -/
def firstBadAddress (base count : Nat) : Option Nat :=
  ((List.range count).map (base + ·)).find? (fun a => decide (Config.memSize ≤ a))

/-- Fetch(pc): none where it raises FetchRange, else the big-endian word (R47, R63). -/
def fetch (s : State) : Option Word :=
  if s.pc.toNat + 1 < Config.memSize then
    some (wordOfBytes (s.mem.read s.pc.toNat) (s.mem.read (s.pc.toNat + 1)))
  else none

/-! ### Registers, pc, stack -/

/-- V[r] <- b (R11). -/
def State.setV (s : State) (r : RegIdx) (b : Byte) : State := { s with v := s.v.set r b }

/-- I <- a (R23). -/
def State.setI (s : State) (a : Word) : State := { s with i := a }

/-- pc <- target (R13). -/
def State.setPc (s : State) (a : Word) : State := { s with pc := a }

/-- DT <- b (R26). -/
def State.setDt (s : State) (b : Byte) : State := { s with dt := b }

/-- ST <- b (R27). -/
def State.setSt (s : State) (b : Byte) : State := { s with st := b }

/-- Replace the memory. -/
def State.setMem (s : State) (m : Memory) : State := { s with mem := m }

/-- Replace the framebuffer; draw_flag <- 1 with it, as CLS and DRW do (R29). -/
def State.setScreen (s : State) (fb : Framebuffer) : State := { s with fb := fb, drawFlag := true }

/-- pc <- trunc_16(pc + 2), the default update (R22). -/
def State.advance (s : State) : State := s.setPc (s.pc + 2)

/-- The skip's update: pc + 4 where the condition holds, else pc + 2 (R22). -/
def State.skipIf (s : State) (cond : Bool) : State := s.setPc (s.pc + if cond then 4 else 2)

/-- stack[sp] <- a, then sp <- sp + 1; none where sp = 16 (R25). -/
def State.push (s : State) (a : Word) : Option State :=
  if h : s.sp.val < 16 then
    some { s with stack := s.stack.set s.sp.val a, sp := ⟨s.sp.val + 1, by omega⟩ }
  else none

/-- sp <- sp - 1, and the entry stack[sp]; none where sp = 0 (R25). -/
def State.pop (s : State) : Option (Word × State) :=
  if h : 0 < s.sp.val then
    some (s.stack[s.sp.val - 1], { s with sp := ⟨s.sp.val - 1, by omega⟩ })
  else none

/-! ### Framebuffer and keys -/

/-- fb[x mod 64][y mod 32] (R28, R41). -/
def pixelAt (fb : Framebuffer) (x y : Nat) : Bool := fb[x % 64][y % 32]

/-- fb[x mod 64][y mod 32] <- fb[x mod 64][y mod 32] ^ 1 (R102). -/
def flipPixel (fb : Framebuffer) (x y : Nat) : Framebuffer :=
  fb.set (x % 64) (fb[x % 64].set (y % 32) (!pixelAt fb x y))

/-- Flip the pixels of a list in turn; the Bool says whether a set pixel became unset (R102). -/
def flipPixels (fb : Framebuffer) (ps : List (Nat × Nat)) : Framebuffer × Bool :=
  ps.foldl (fun acc p => (flipPixel acc.1 p.1 p.2, acc.2 || pixelAt acc.1 p.1 p.2)) (fb, false)

/-- min { k | key[k] = 1 }, none where no key is pressed (R105). -/
def lowestKey (key : Vector Bool 16) : Option RegIdx := (List.finRange 16).find? (fun k => key[k])

/-! ### Timers and outputs -/

/-- One count down, never below zero (R125). -/
def countDown (b : Byte) : Byte := if b.toNat > 0 then b - 1 else b

/-- TimerTick, where it is due (R125). -/
def timerTick (due : Bool) (s : State) : State :=
  { s with dt := if due then countDown s.dt else s.dt
           st := if due then countDown s.st else s.st }

/-- sound_active = (ST > 1) (R27, R42). -/
def soundActive (s : State) : Bool := decide (s.st.toNat > 1)

/-! ### Faults (R117, R121) and Reset (R131) -/

/-- The code of a cause (R117). -/
def FaultCause.code : FaultCause → BitVec 3
  | .stackOverflow => 1
  | .stackUnderflow => 2
  | .fetchRange => 3
  | .dataRange => 4
  | .keyRange => 5

/-- Fault entry (R121): halted <- 1, fault_code <- c, the Step returns Fault(c, info). No write of the
instruction takes effect, and pc keeps the instruction's address. -/
def raiseFault (c : FaultCause) (info : Nat) (s : State) : State :=
  { s with halted := true, faultCode := c.code, lastDiag := .fault c info }

/-- Run k where every address of [base, base + count) is in the address space, else raise DataRange with the
lowest failing address (R48, R52). -/
def whenInRange (base count : Nat) (s : State) (k : State) : State :=
  match firstBadAddress base count with
  | some a => raiseFault .dataRange a s
  | none => k

/-- Reset (R131): every state element at its value of R38; FONT, LEGACY, INDEX_OVF_FLAG and the host's own
fields stay. -/
def resetCore (s : State) : State :=
  { State.afterReset s.mem.font s.legacy s.indexOvf with
      rnd := s.rnd, stepNo := s.stepNo, pending := s.pending }

end Sys2Proof.Machine
end

