-- ==== Sys2Proof/Machine/Operands.lean ====
section
/-! DEFINITION. The operand forms of the instructions (spec/30_encoding.md R64, R65): registers V[X] and V[Y],
the zero-extended immediates, the effective addresses I + k, and the implicit operands (V0, LEGACY's shift
source, the input latch, the sprite). Every operand is read before any write (spec/41_alu.md R88). -/

namespace Sys2Proof.Machine

/-- V[r] (R11). -/
def State.reg (s : State) (r : RegIdx) : Byte := s.v[r]

/-- A byte zero-extended to 16 bits. -/
def zext16 (b : Byte) : Word := b.setWidth 16

/-- I + k, exact: neither truncated to 16 nor to 12 bits before the range check (R46). -/
def State.indexAddr (s : State) (k : Nat) : Nat := s.i.toNat + k

/-- The byte at I + k (R48). -/
def State.readAtIndex (s : State) (k : Nat) : Byte := s.mem.read (s.indexAddr k)

/-- The source of a shift: V[Y] when LEGACY = 1, V[X] when LEGACY = 0 (R97, R99). -/
def State.shiftSource (s : State) (x y : RegIdx) : Byte := if s.legacy then s.reg y else s.reg x

/-- The latch bit that V[X] selects, none where V[X] > 15 (R103, R104). -/
def State.keyOf (s : State) (x : RegIdx) : Option Bool :=
  if h : (s.reg x).toNat < 16 then some s.key[(s.reg x).toNat] else none

/-- The target of JP V0: zext_16(NNN) + zext_16(V[0]), not truncated to 12 bits (R84). -/
def State.offsetTarget (s : State) (nnn : Word) : Word := nnn + zext16 (s.reg 0)

/-- The font address of a register's value: V[X] * 5, not masked (R112). -/
def State.glyphAddr (s : State) (x : RegIdx) : Word := zext16 (s.reg x) * 5

/-- The three decimal digits of a byte: hundreds, tens, units (R113). -/
def bcdDigits (b : Byte) : List Byte :=
  [BitVec.ofNat 8 (b.toNat / 100), BitVec.ofNat 8 (b.toNat / 10 % 10), BitVec.ofNat 8 (b.toNat % 10)]

/-- V[0..x] in order (R114). -/
def State.regsUpTo (s : State) (x : RegIdx) : List Byte := s.v.toList.take (x.val + 1)

/-- Load consecutive registers from V[r] upward; bytes past V[15] have no register. -/
def writeRegs (v : Vector Byte 16) (r : Nat) : List Byte → Vector Byte 16
  | [] => v
  | b :: bs => writeRegs (if h : r < 16 then v.set r b else v) (r + 1) bs

/-- The bytes at I .. I + n - 1. -/
def State.bytesAtIndex (s : State) (n : Nat) : List Byte := (List.range n).map s.readAtIndex

/-- The pixels of a sprite whose bit is 1, row by row and left to right: row r is `rows r`, bit 7 its leftmost
pixel, the origin is (x0, y0), and both coordinates wrap (R102). -/
def spritePixels (rows : Nat → Byte) (x0 y0 n : Nat) : List (Nat × Nat) :=
  (List.range n).flatMap fun r =>
    (List.range 8).filterMap fun c =>
      if (rows r).getLsbD (7 - c) then some ((x0 + c) % 64, (y0 + r) % 32) else none

/-- The pixels that DRW Vx, Vy, N flips (R102). -/
def State.drawnPixels (s : State) (x y : RegIdx) (n : Nat) : List (Nat × Nat) :=
  spritePixels s.readAtIndex (s.reg x).toNat (s.reg y).toNat n

end Sys2Proof.Machine
end

