-- ==== Sys2Proof/Machine/Flags.lean ====
section
/-! DEFINITION. The values of the flag VF (spec/10_state.md R35) and the order of the flag write and the
result write (spec/41_alu.md R88). All arithmetic is unsigned (R87). -/

namespace Sys2Proof.Machine

/-- A flag is the byte 1 or the byte 0. -/
def flagByte (b : Bool) : Byte := if b then 1 else 0

/-- 8XY4: 1 when the unsigned sum exceeds 255 (R95). -/
def carryFlag (a b : Byte) : Byte := flagByte (decide (a.toNat + b.toNat > 255))

/-- 8XY5 and 8XY7, minuend a and subtrahend b: 0 on a borrow, else 1 (R96, R98). -/
def noBorrowFlag (a b : Byte) : Byte := flagByte (!decide (a.toNat < b.toNat))

/-- 8XY6: the source's pre-shift bit 0 (R97). -/
def shiftRightFlag (src : Byte) : Byte := flagByte (src.getLsbD 0)

/-- 8XYE: the source's pre-shift bit 7 (R99). -/
def shiftLeftFlag (src : Byte) : Byte := flagByte (src.getLsbD 7)

/-- FX1E with INDEX_OVF_FLAG: 1 when the exact sum exceeds 0xFFF (R111). -/
def indexFlag (sum : Nat) : Byte := flagByte (decide (sum > 0xFFF))

/-- VF <- flag, then V[X] <- result: the flag is written first, so the result survives when X = F (R88). -/
def State.setFlagThenResult (s : State) (x : RegIdx) (flag result : Byte) : State :=
  (s.setV 15 flag).setV x result

end Sys2Proof.Machine
end

