-- ==== Sys2Proof/Machine/Alu.lean ====
section
/-! DEFINITION. Immediates, register-register operations, shifts and the random byte (spec/41_alu.md R89 to
R100). -/

namespace Sys2Proof.Machine

/-- LD Vx, NN (R89). -/
def execLdImm (x : RegIdx) (nn : Byte) (s : State) : Result := .next (s.setV x nn).advance

/-- ADD Vx, NN (R90): no flag. -/
def execAddImm (x : RegIdx) (nn : Byte) (s : State) : Result := .next (s.setV x (s.reg x + nn)).advance

/-- LD Vx, Vy (R91). -/
def execLdReg (x y : RegIdx) (s : State) : Result := .next (s.setV x (s.reg y)).advance

/-- OR Vx, Vy (R92): VF is not reset. -/
def execOr (x y : RegIdx) (s : State) : Result := .next (s.setV x (s.reg x ||| s.reg y)).advance

/-- AND Vx, Vy (R93): VF is not reset. -/
def execAnd (x y : RegIdx) (s : State) : Result := .next (s.setV x (s.reg x &&& s.reg y)).advance

/-- XOR Vx, Vy (R94): VF is not reset. -/
def execXor (x y : RegIdx) (s : State) : Result := .next (s.setV x (s.reg x ^^^ s.reg y)).advance

/-- ADD Vx, Vy (R95). -/
def execAddReg (x y : RegIdx) (s : State) : Result :=
  .next (s.setFlagThenResult x (carryFlag (s.reg x) (s.reg y)) (s.reg x + s.reg y)).advance

/-- SUB Vx, Vy (R96): V[X] - V[Y], in both LEGACY modes. -/
def execSub (x y : RegIdx) (s : State) : Result :=
  .next (s.setFlagThenResult x (noBorrowFlag (s.reg x) (s.reg y)) (s.reg x - s.reg y)).advance

/-- SHR Vx, Vy (R97). -/
def execShr (x y : RegIdx) (s : State) : Result :=
  .next (s.setFlagThenResult x (shiftRightFlag (s.shiftSource x y)) (s.shiftSource x y >>> 1)).advance

/-- SUBN Vx, Vy (R98): V[Y] - V[X], in both LEGACY modes. -/
def execSubn (x y : RegIdx) (s : State) : Result :=
  .next (s.setFlagThenResult x (noBorrowFlag (s.reg y) (s.reg x)) (s.reg y - s.reg x)).advance

/-- SHL Vx, Vy (R99). -/
def execShl (x y : RegIdx) (s : State) : Result :=
  .next (s.setFlagThenResult x (shiftLeftFlag (s.shiftSource x y)) (s.shiftSource x y <<< 1)).advance

/-- RND Vx, NN (R100): the Step's input rnd, masked. -/
def execRnd (x : RegIdx) (nn : Byte) (s : State) : Result := .next (s.setV x (s.rnd &&& nn)).advance

end Sys2Proof.Machine
end

