-- ==== Sys2Proof/Machine/DisplayInput.lean ====
section
/-! DEFINITION. The sprite draw and the key input (spec/42_display_input.md R102 to R105). -/

namespace Sys2Proof.Machine

/-- DRW Vx, Vy, N (R102): XOR the sprite at I onto the screen, VF <- collision, draw_flag <- 1. -/
def execDrw (x y : RegIdx) (n : Nat) (s : State) : Result :=
  let drawn := flipPixels s.fb (s.drawnPixels x y n)
  .next (whenInRange (s.indexAddr 0) n s ((s.setScreen drawn.1).setV 15 (flagByte drawn.2)).advance)

/-- SKP Vx (R103): skip if the key is pressed, or KeyRange(V[X]). -/
def execSkp (x : RegIdx) (s : State) : Result :=
  match s.keyOf x with
  | some pressed => .next (s.skipIf pressed)
  | none => .next (raiseFault .keyRange (s.reg x).toNat s)

/-- SKNP Vx (R104): skip if the key is not pressed, or KeyRange(V[X]). -/
def execSknp (x : RegIdx) (s : State) : Result :=
  match s.keyOf x with
  | some pressed => .next (s.skipIf (!pressed))
  | none => .next (raiseFault .keyRange (s.reg x).toNat s)

/-- LD Vx, K (R105): the lowest pressed key; no write at all, and pc unchanged, while none is pressed. -/
def execLdK (x : RegIdx) (s : State) : Result :=
  match lowestKey s.key with
  | some k => .next (s.setV x (BitVec.ofNat 8 k.val)).advance
  | none => .next s

end Sys2Proof.Machine
end

