-- ==== Sys2Proof/Machine/Flow.lean ====
section
/-! DEFINITION. Control transfer (spec/40_flow.md R76 to R84): CLS, RET, JP, CALL, the four skips on registers
and immediates, and JP V0. -/

namespace Sys2Proof.Machine

/-- CLS (R76). -/
def execCls (s : State) : Result := .next (s.setScreen blankScreen).advance

/-- RET (R77): pc <- popped + 2, or StackUnderflow(pc). -/
def execRet (s : State) : Result :=
  match s.pop with
  | some (a, s') => .next (s'.setPc (a + 2))
  | none => .next (raiseFault .stackUnderflow s.pc.toNat s)

/-- JP NNN (R78). -/
def execJp (nnn : Word) (s : State) : Result := .next (s.setPc nnn)

/-- CALL NNN (R79): pushes its own address, or StackOverflow(pc). -/
def execCall (nnn : Word) (s : State) : Result :=
  match s.push s.pc with
  | some s' => .next (s'.setPc nnn)
  | none => .next (raiseFault .stackOverflow s.pc.toNat s)

/-- SE Vx, NN (R80). -/
def execSeImm (x : RegIdx) (nn : Byte) (s : State) : Result := .next (s.skipIf (s.reg x == nn))

/-- SNE Vx, NN (R81). -/
def execSneImm (x : RegIdx) (nn : Byte) (s : State) : Result := .next (s.skipIf (s.reg x != nn))

/-- SE Vx, Vy (R82). -/
def execSeReg (x y : RegIdx) (s : State) : Result := .next (s.skipIf (s.reg x == s.reg y))

/-- SNE Vx, Vy (R83). -/
def execSneReg (x y : RegIdx) (s : State) : Result := .next (s.skipIf (s.reg x != s.reg y))

/-- JP V0, NNN (R84). -/
def execJpV0 (nnn : Word) (s : State) : Result := .next (s.setPc (s.offsetTarget nnn))

end Sys2Proof.Machine
end

