-- ==== Sys2Proof/Machine/IndexTimerMemory.lean ====
section
/-! DEFINITION. The index register, the timers, the font pointer and the memory transfers
(spec/43_index_timer_memory.md R107 to R115). -/

namespace Sys2Proof.Machine

/-- LD I, NNN (R107). -/
def execLdI (nnn : Word) (s : State) : Result := .next (s.setI nnn).advance

/-- LD Vx, DT (R108). -/
def execLdVxDt (x : RegIdx) (s : State) : Result := .next (s.setV x s.dt).advance

/-- LD DT, Vx (R109). -/
def execLdDtVx (x : RegIdx) (s : State) : Result := .next (s.setDt (s.reg x)).advance

/-- LD ST, Vx (R110). -/
def execLdStVx (x : RegIdx) (s : State) : Result := .next (s.setSt (s.reg x)).advance

/-- ADD I, Vx (R111): I wraps modulo 2^16; VF receives the flag when INDEX_OVF_FLAG = 1 and keeps its value else. -/
def execAddI (x : RegIdx) (s : State) : Result :=
  let vf := if s.indexOvf then indexFlag (s.indexAddr (s.reg x).toNat) else s.reg 15
  .next ((s.setV 15 vf).setI (s.i + zext16 (s.reg x))).advance

/-- LD F, Vx (R112). -/
def execLdF (x : RegIdx) (s : State) : Result := .next (s.setI (s.glyphAddr x)).advance

/-- LD B, Vx (R113): the three digits to I, I + 1, I + 2, or DataRange before any write; I is unchanged. -/
def execLdB (x : RegIdx) (s : State) : Result :=
  .next (whenInRange (s.indexAddr 0) 3 s
    (s.setMem (s.mem.writeList (s.indexAddr 0) (bcdDigits (s.reg x)))).advance)

/-- LD [I], Vx (R114): V[0..X] to I .. I + X, then I <- I + X + 1, or DataRange before any write. -/
def execLdMemVx (x : RegIdx) (s : State) : Result :=
  .next (whenInRange (s.indexAddr 0) (x.val + 1) s
    ((s.setMem (s.mem.writeList (s.indexAddr 0) (s.regsUpTo x))).setI
      (s.i + BitVec.ofNat 16 (x.val + 1))).advance)

/-- LD Vx, [I] (R115): V[0..X] from I .. I + X, then I <- I + X + 1, or DataRange before any write. -/
def execLdVxMem (x : RegIdx) (s : State) : Result :=
  .next (whenInRange (s.indexAddr 0) (x.val + 1) s
    (({ s with v := writeRegs s.v 0 (s.bytesAtIndex (x.val + 1)) }).setI
      (s.i + BitVec.ofNat 16 (x.val + 1))).advance)

end Sys2Proof.Machine
end

