-- ==== Sys2Proof/Machine/Transactions.lean ====
section
/-! DEFINITION. The transactions the core serves (spec/10_state.md R40): the Step (spec/40_flow.md R75), and the
host's Reset, SetConfig, Load, SetKey, ClearDrawFlag, Tick, GetPixel and output reads. -/

namespace Sys2Proof.Machine

/-- The state in which a Step's instruction executes: rnd is at its input, the outcome is Ok until the Step says
otherwise (R75), and SetConfig is closed (R45). -/
def begun (s : State) (rnd : Byte) : State :=
  { s with rnd := rnd, configOpen := false, reply := .stepped, lastDiag := .ok }

/-- A Step on a word fetched at pc (R75): an unknown opcode is reported and leaves the rest (R118), an instruction
is executed; then the timer tick where it is due, but not after a fault (R120). -/
def runWord (tickDue : Bool) (w : Word) (s : State) : Result :=
  match decodeWord w with
  | .error _ => .next (timerTick tickDue { s with lastDiag := .unknownOpcode w })
  | .ok i =>
    match exec i s with
    | .next t => .next (timerTick (tickDue && !t.halted) t)
    | .fault r => .fault r
    | .refused r => .refused r

/-- The Step transaction with inputs tick_due and rnd (R75). A halted core answers Halted and changes nothing
(R122); a pc whose two bytes are not both in memory raises FetchRange(pc) (R47). -/
def serveStep (tickDue : Bool) (rnd : Byte) (s : State) : Result :=
  if s.halted then .next { s with lastDiag := .halted, reply := .stepped }
  else
    match fetch s with
    | none => .next (raiseFault .fetchRange s.pc.toNat (begun s rnd))
    | some w => runWord tickDue w (begun s rnd)

/-- Reset (R131). -/
def serveReset (s : State) : Result := .next { resetCore s with reply := .done }

/-- SetConfig (R45): accepted only between a Reset and the first Step after it. -/
def serveSetConfig (legacy indexOvf : Bool) (s : State) : Result :=
  if s.configOpen then .next { s with legacy := legacy, indexOvf := indexOvf, reply := .done }
  else .refused .setConfigAfterFirstStep

/-- Load (R56): the bytes to 0x200 upward, or RomTooLarge and no change. -/
def serveLoad (bytes : List Byte) (s : State) : Result :=
  if bytes.length > Config.progMax then .next { s with reply := .romTooLarge }
  else .next { s with mem := s.mem.writeList Config.progStart bytes, reply := .loaded }

/-- SetKey (R33, R106): key[k] <- pressed; an index outside 0..15 is refused. -/
def serveSetKey (k : Nat) (pressed : Bool) (s : State) : Result :=
  if h : k < 16 then .next { s with key := s.key.set k pressed, reply := .done }
  else .refused .setKeyOutOfRange

/-- ClearDrawFlag (R29). -/
def serveClearDrawFlag (s : State) : Result := .next { s with drawFlag := false, reply := .done }

/-- Tick (R125): the timer tick alone; nothing while halted (R122). -/
def serveTick (s : State) : Result := .next { timerTick (!s.halted) s with reply := .done }

/-- GetPixel (R41). -/
def serveGetPixel (x y : Nat) (s : State) : Result := .next { s with reply := .pixel (pixelAt s.fb x y) }

/-- The read outputs (R40, R42 to R44). -/
def serveReadOutputs (s : State) : Result :=
  .next { s with reply := .outputs s.drawFlag (soundActive s) s.halted s.faultCode s.lastDiag }

/-- Serve one transaction (R40). -/
def serve (t : Txn) (s : State) : Result :=
  match t with
  | .reset => serveReset s
  | .setConfig legacy indexOvf => serveSetConfig legacy indexOvf s
  | .load bytes => serveLoad bytes s
  | .setKey k pressed => serveSetKey k pressed s
  | .clearDrawFlag => serveClearDrawFlag s
  | .step tickDue rnd => serveStep tickDue rnd s
  | .tick => serveTick s
  | .getPixel x y => serveGetPixel x y s
  | .readOutputs => serveReadOutputs s

/-- The Step the host issues on its own account when no transaction is waiting: its inputs are free values
(R36, R100, R126; assumption log 2). -/
def freeStep (s : State) : Result :=
  serveStep (Config.tickDue s.stepNo) (Config.rnd s.stepNo) { s with stepNo := s.stepNo + 1 }

/-- Serve the oldest waiting transaction, else a Step on the host's own account (R57). -/
def serveNext (s : State) : Result :=
  match s.pending with
  | [] => freeStep s
  | t :: rest => serve t { s with pending := rest }

/-- Place a word where the next Step fetches: no transaction waits, the core is not halted, and the pc is one
whose two bytes are in memory (else PROG_START). -/
def placeWord (s : State) (w : Word) : State :=
  let pc : Word := if s.pc.toNat + 1 < Config.memSize then s.pc else BitVec.ofNat 16 Config.progStart
  { s with
      pc := pc
      mem := s.mem.writeList pc.toNat [hiByte w, loByte w]
      halted := false
      faultCode := 0
      pending := [] }

end Sys2Proof.Machine
end

