-- ==== Sys2Proof/Machine/Step.lean ====
section
/-! DEFINITION. One step of the machine: the next transaction is served (spec/10_state.md R40,
spec/20_memory.md R57). -/

namespace Sys2Proof.Machine

/-- Serve one transaction: the oldest one waiting, or, where none waits, a Step with free inputs. -/
def step (s : State) : Host.Outcome State Fault Refusal := serveNext s

/-- s with the instruction of an opcode-table word placed where `step` fetches its next instruction. -/
def State.withFetchWord (s : State) (nbits w : Nat) : State := placeWord s (tableWord nbits w)

end Sys2Proof.Machine
end

