-- ==== Sys2Proof/Safety.lean ====
section
/-! DEFINITION. The words claims are stated in: the parts of the state and what it is to write only some of
them, what taking a fault leaves (spec/60_exceptions.md R121), when a Step is issued, and the invariant of
the machine. -/

namespace Sys2Proof.Machine

/-- A part of the state: one register, one stack entry, one byte of memory, one key, the screen, or one of the
single elements. Together the parts are all of State. -/
inductive Part where
  | reg (r : RegIdx)
  | pc
  | index
  | stack (k : Fin 16)
  | sp
  | dt
  | st
  | byte (a : Nat)
  | font
  | screen
  | key (k : Fin 16)
  | drawFlag
  | halted
  | faultCode
  | legacy
  | indexOvf
  | lastDiag
  | configOpen
  | reply
  | rnd
  | stepNo
  | pending
  deriving DecidableEq, Repr

/-- The two states agree on the part. -/
def Part.same (s t : State) : Part → Prop
  | .reg r => t.v[r] = s.v[r]
  | .pc => t.pc = s.pc
  | .index => t.i = s.i
  | .stack k => t.stack[k] = s.stack[k]
  | .sp => t.sp = s.sp
  | .dt => t.dt = s.dt
  | .st => t.st = s.st
  | .byte a => t.mem.read a = s.mem.read a
  | .font => t.mem.font = s.mem.font
  | .screen => t.fb = s.fb
  | .key k => t.key[k] = s.key[k]
  | .drawFlag => t.drawFlag = s.drawFlag
  | .halted => t.halted = s.halted
  | .faultCode => t.faultCode = s.faultCode
  | .legacy => t.legacy = s.legacy
  | .indexOvf => t.indexOvf = s.indexOvf
  | .lastDiag => t.lastDiag = s.lastDiag
  | .configOpen => t.configOpen = s.configOpen
  | .reply => t.reply = s.reply
  | .rnd => t.rnd = s.rnd
  | .stepNo => t.stepNo = s.stepNo
  | .pending => t.pending = s.pending

/-- From s to t every part is unchanged except, at most, the listed ones. -/
def OnlyWrites (s t : State) (ps : List Part) : Prop := ∀ p : Part, p ∉ ps → p.same s t

/-- The bytes at a .. a + n - 1. -/
def bytesFrom (a n : Nat) : List Part := (List.range n).map (fun k => Part.byte (a + k))

/-- V[0] .. V[x]. -/
def regsThrough (x : RegIdx) : List Part := ((List.finRange 16).filter (· ≤ x)).map Part.reg

/-- What a fault of cause c, code n and this info leaves (R117, R121): halted, the code, the outcome, and
nothing else written. -/
def TakesFault (n : BitVec 3) (c : FaultCause) (info : Nat) (s t : State) : Prop :=
  t.halted = true ∧ t.faultCode = n ∧ t.lastDiag = .fault c info ∧
    OnlyWrites s t [.halted, .faultCode, .lastDiag]

/-- The next transaction is a Step with inputs tick_due and rnd: the oldest waiting one, or, where none waits,
the host's own with free inputs. s0 is the state with that transaction taken off. -/
def StepIssued (s : State) (tickDue : Bool) (rnd : Byte) (s0 : State) : Prop :=
  (∃ rest, s.pending = .step tickDue rnd :: rest ∧ s0 = { s with pending := rest }) ∨
    (s.pending = [] ∧ tickDue = Config.tickDue s.stepNo ∧ rnd = Config.rnd s.stepNo ∧
      s0 = { s with stepNo := s.stepNo + 1 })

/-- A run is safe as long as the core is not halted (R122, R138: "This is a faulted end, never a successful
one"). -/
def State.running (s : State) : Bool := !s.halted

/-- The outcomes that only a halted core shows (R44). -/
def Diag.fatal : Diag → Bool
  | .ok => false
  | .unknownOpcode _ => false
  | .fault _ _ => true
  | .halted => true

/-- The invariant of the machine. -/
structure State.Inv (s : State) : Prop where
  /-- Memory keeps its canonical form (the model's representation, assumption log 5). -/
  memory : s.mem.wf = true
  /-- The pc never wraps: the highest target is JP V0's 0xFFF + 0xFF (R84). -/
  pcBound : s.pc.toNat ≤ 0x10FE
  /-- Every return address in use is a pc that was fetched (R77). -/
  returns : ∀ k : Fin 16, k.val < s.sp.val → s.stack[k].toNat ≤ 0xFFE
  /-- halted and fault_code agree: 0 means no fault, and the codes are 1 to 5 (R30, R117). -/
  code : s.faultCode.toNat ≤ 5 ∧ (s.halted = true ↔ s.faultCode ≠ 0)
  /-- last_diag is Fault or Halted exactly in a halted core (R44, R121, R122; after Reset it is the model's Ok,
  assumption log 7). -/
  diag : s.lastDiag.fatal = s.halted
  /-- While SetConfig is open no Step has run, so nothing has faulted (R45; the bit is the model's, assumption
  log 9). -/
  config : s.configOpen = true → s.halted = false

end Sys2Proof.Machine
end

