-- ==== Sys2Proof/Certificates/Slice0/Obligations.lean ====
section
/-! DEFINITION. The statements about CHIP8-CORE, file by file of spec/. Where a statement rests on what the spec
marks as derived, as general knowledge, or on a choice of this model, its docstring says so. -/

open Sys2Proof Sys2Proof.Machine

/-! ### Encoding (spec/30_encoding.md) -/

/-- Decoding the bytes of an encoded well-formed instruction gives it back, with every operand at every value the
encoding admits, and consumes exactly its two bytes (R74, which the spec marks as derived; R61). -/
def Obligations.DecodeInvertsEncode : Prop :=
  ∀ (i : Instr) (rest : List Byte), i.wf = true → decode (encodeBytes i ++ rest) = .ok (i, rest)

/-- R68: decoding is the search of the opcode map, the first row with (w & mask) = match, on every word. (The
match values are general knowledge in the spec's own words, 93 G1; the model takes them from R68.) -/
def Obligations.DecoderFollowsTheOpcodeMap : Prop := ∀ w : Word, decodeWord w = decodeByMap w

/-- R69 and R71: the words that decode to no instruction are exactly those R69 lists, each is reported with the
word itself, and every other word decodes to an instruction. -/
def Obligations.UnknownOpcodesAreTheListedOnes : Prop :=
  ∀ w : Word,
    ((∃ i, decodeWord w = .ok i) ∨ decodeWord w = .error (.unknownOpcode w)) ∧
    (decodeWord w = .error (.unknownOpcode w) ↔
      (w.toNat / 0x1000 = 0x0 ∧ w.toNat % 0x100 ∉ [0xE0, 0xEE]) ∨
      (w.toNat / 0x1000 = 0x8 ∧ w.toNat % 0x10 ∈ [0x8, 0x9, 0xA, 0xB, 0xC, 0xD, 0xF]) ∨
      (w.toNat / 0x1000 = 0xE ∧ w.toNat % 0x100 ∉ [0x9E, 0xA1]) ∨
      (w.toNat / 0x1000 = 0xF ∧
        w.toNat % 0x100 ∉ [0x07, 0x0A, 0x15, 0x18, 0x1E, 0x29, 0x33, 0x55, 0x65]))

/-- R67: the don't-care bits are X in family 0x0 and N in families 0x5 and 0x9, and no others: clearing them
changes no decoding, and the decoded instruction keeps every other bit, since it encodes to the cleared word. -/
def Obligations.DontCareBitsAreIgnoredAndNoOthers : Prop :=
  ∀ (w : Word) (i : Instr),
    let care : Word :=
      if opField w = 0x0 then 0xF0FF else if opField w = 0x5 ∨ opField w = 0x9 then 0xFFF0 else 0xFFFF
    (decodeWord w = .ok i ↔ decodeWord (w &&& care) = .ok i) ∧
      (decodeWord w = .ok i → i.wf = true ∧ encode i = w &&& care)

/-- A few words of the spec's own tables decode to the instruction they stand for, one of each format. -/
def Obligations.SpecWordsDecode : Prop :=
  decode [0x00, 0xE0] = .ok (.cls, []) ∧ decode [0x0F, 0xEE] = .ok (.ret, []) ∧
  decode [0x12, 0x34] = .ok (.jp 0x234, []) ∧ decode [0x33, 0x42] = .ok (.seImm 3 0x42, []) ∧
  decode [0x51, 0x2F] = .ok (.seReg 1 2, []) ∧ decode [0x81, 0x26] = .ok (.shr 1 2, []) ∧
  decode [0xA2, 0xF0] = .ok (.ldI 0x2F0, []) ∧ decode [0xD1, 0x25] = .ok (.drw 1 2 5, []) ∧
  decode [0xE2, 0x9E] = .ok (.skp 2, []) ∧ decode [0xFA, 0x33] = .ok (.ldB 10, []) ∧
  decode [0x80, 0x18] = .error (.unknownOpcode 0x8018)

/-! ### The Step (spec/40_flow.md R75, spec/60_exceptions.md) -/

/-- R75: when the two bytes at pc decode to i, the Step is exec of i at the state where rnd is the Step's input,
followed by the timer tick where tick_due is set and no fault was raised. Both forms of a Step are covered: one
waiting in `pending`, and the host's own with free inputs. (The queue, and SetConfig closing at a Step, are the
model's: assumption logs 1 and 9.) -/
def Obligations.StepRunsTheDecodedInstruction : Prop :=
  ∀ (s s0 : State) (tickDue : Bool) (rnd : Byte) (i : Instr) (rest : List Byte) (t : State),
    StepIssued s tickDue rnd s0 → s.halted = false → s.pc.toNat + 1 < 4096 →
    decode [s.mem.read s.pc.toNat, s.mem.read (s.pc.toNat + 1)] = .ok (i, rest) →
    exec i (begun s0 rnd) = .next t →
    step s = .next (timerTick (tickDue && !t.halted) t)

/-- R47: the fetched word is big-endian, the byte at pc its high half; and a Step whose pc or pc + 1 is outside
memory raises FetchRange(pc), with no tick. -/
def Obligations.FetchIsBigEndianAndRangeChecked : Prop :=
  (∀ s : State, s.pc.toNat + 1 < 4096 → ∃ w, fetch s = some w ∧
    w.toNat = (s.mem.read s.pc.toNat).toNat * 256 + (s.mem.read (s.pc.toNat + 1)).toNat) ∧
  (∀ (s s0 : State) (tickDue : Bool) (rnd : Byte),
    StepIssued s tickDue rnd s0 → s.halted = false → 4096 ≤ s.pc.toNat + 1 →
    ∃ t, step s = .next t ∧ TakesFault 3 .fetchRange s.pc.toNat (begun s0 rnd) t)

/-- R118: a Step that finds no instruction reports UnknownOpcode(w), does not halt, and changes only the timers,
by the tick where it is due; the next Step will fetch the same word. -/
def Obligations.UnknownOpcodeIsReportedAndLeavesTheRest : Prop :=
  ∀ (s s0 : State) (tickDue : Bool) (rnd : Byte) (w : Word) (e : DecodeError),
    StepIssued s tickDue rnd s0 → s.halted = false → fetch s = some w → decodeWord w = .error e →
    ∃ t, step s = .next t ∧ t.lastDiag = .unknownOpcode w ∧ t.halted = false ∧ fetch t = some w ∧
      t.dt.toNat = s.dt.toNat - (if tickDue then 1 else 0) ∧
      t.st.toNat = s.st.toNat - (if tickDue then 1 else 0) ∧
      OnlyWrites (begun s0 rnd) t [.lastDiag, .dt, .st]

/-- Every instruction answers a next state in every state, with every operand: no meaning stops. (That a fault is
a next state and not a stop is R121 as this model reads it, assumption log 6.) -/
def Obligations.EveryInstructionAnswersANextState : Prop :=
  ∀ (i : Instr) (s : State), ∃ t, exec i s = .next t

/-- R121: where an instruction of a running core raises a fault, halted, the cause's code and the outcome
Fault(c, info) are all that is written; pc keeps the instruction's address. (The code of each cause is in
FaultsAreRaisedExactlyAsTabled.) -/
def Obligations.FaultsArePrecise : Prop :=
  ∀ (i : Instr) (s t : State), s.halted = false → exec i s = .next t → t.halted = true →
    ∃ (c : FaultCause) (info : Nat), TakesFault c.code c info s t ∧ t.pc = s.pc

/-- R117: an instruction of a running core raises a fault exactly under the table's conditions, with the table's
code and info (for DataRange the lowest failing address); and a Step ends with code 3, and with the outcome
Fault(FetchRange, pc), exactly where pc or pc + 1 is outside memory. -/
def Obligations.FaultsAreRaisedExactlyAsTabled : Prop :=
  (∀ (i : Instr) (s t : State) (n : BitVec 3) (c : FaultCause) (info : Nat),
    s.halted = false → exec i s = .next t →
    ((t.halted = true ∧ t.faultCode = n ∧ t.lastDiag = .fault c info) ↔
      (n = 1 ∧ c = .stackOverflow ∧ info = s.pc.toNat ∧ s.sp.val = 16 ∧ ∃ nnn, i = .call nnn) ∨
      (n = 2 ∧ c = .stackUnderflow ∧ info = s.pc.toNat ∧ s.sp.val = 0 ∧ i = .ret) ∨
      (n = 4 ∧ c = .dataRange ∧ ∃ k, info = s.indexAddr k ∧ 4096 ≤ s.indexAddr k ∧
        (∀ j < k, s.indexAddr j < 4096) ∧
        ((∃ x y rows, i = .drw x y rows ∧ k < rows) ∨ (∃ x, i = .ldB x ∧ k ≤ 2) ∨
          (∃ x : RegIdx, (i = .ldMemVx x ∨ i = .ldVxMem x) ∧ k ≤ x.val))) ∨
      (n = 5 ∧ c = .keyRange ∧ ∃ x : RegIdx, info = s.v[x].toNat ∧ 15 < s.v[x].toNat ∧
        (i = .skp x ∨ i = .sknp x)))) ∧
  (∀ (s s0 t : State) (tickDue : Bool) (rnd : Byte), StepIssued s tickDue rnd s0 → s.halted = false →
    step s = .next t →
    ((t.halted = true ∧ t.faultCode = 3) ↔ 4096 ≤ s.pc.toNat + 1) ∧
    (∀ info, t.lastDiag = .fault .fetchRange info ↔ 4096 ≤ s.pc.toNat + 1 ∧ info = s.pc.toNat))

/-- R122: while halted, a Step returns Halted and neither it nor a Tick changes the timers or anything else of the
core. (last_diag and the model's reply are what the transaction returns, assumption logs 7, 8 and 11.) -/
def Obligations.HaltedCoreIsFrozen : Prop :=
  (∀ (s s0 : State) (tickDue : Bool) (rnd : Byte), StepIssued s tickDue rnd s0 → s.halted = true →
    ∃ t, step s = .next t ∧ t.lastDiag = .halted ∧ OnlyWrites s0 t [.lastDiag, .reply]) ∧
  (∀ (s : State) (rest : List Txn), s.pending = .tick :: rest → s.halted = true →
    ∃ t, step s = .next t ∧ OnlyWrites s t [.reply, .pending])

/-- R122: "Reset is the only way out": a step from a halted core to a running one served a Reset. -/
def Obligations.OnlyResetLeavesTheHaltedState : Prop :=
  ∀ s t : State, s.halted = true → step s = .next t → t.halted = false →
    ∃ rest, s.pending = .reset :: rest

/-! ### The invariant -/

/-- The state after reset meets the invariant. (Three clauses are the model's and no row of R38: the canonical form
of memory, assumption log 5; the outcome Ok after Reset, on which clause diag rests, assumption log 7; the window of
SetConfig, assumption log 9.) -/
def Obligations.ResetMeetsTheInvariant : Prop := State.reset.Inv

/-- Every step keeps the invariant: memory canonical, pc at most 0x10FE, every stacked return address a fetchable
pc, fault_code and last_diag in agreement with halted, no halt while SetConfig is open. (The bounds rest on R77's
and R84's own remarks, the first marked derived. Three clauses are the model's: the canonical form of memory,
assumption log 5; last_diag, which the step that serves Reset sets to Ok, assumption log 7; the window of SetConfig,
assumption log 9.) -/
def Obligations.EveryStepKeepsTheInvariant : Prop :=
  ∀ s t : State, s.Inv → step s = .next t → t.Inv

/-! ### Which instruction may write what (spec/10_state.md) -/

/-- R24 and R25: only CALL writes the stack, only CALL and RET move sp. -/
def Obligations.StackBelongsToCallAndRet : Prop :=
  ∀ (i : Instr) (s t : State), exec i s = .next t →
    ((∀ nnn, i ≠ .call nnn) → ∀ k : Fin 16, t.stack[k] = s.stack[k]) ∧
    ((∀ nnn, i ≠ .call nnn) → i ≠ .ret → t.sp = s.sp)

/-- R51: no instruction but FX33 and FX55 changes a byte of memory, and each of these only its own bytes. -/
def Obligations.MemoryIsStoredByFx33AndFx55Alone : Prop :=
  ∀ (i : Instr) (s t : State) (a : Nat), exec i s = .next t → t.mem.read a ≠ s.mem.read a →
    (∃ x k, i = .ldB x ∧ k ≤ 2 ∧ a = s.indexAddr k) ∨
    (∃ (x : RegIdx) (k : Nat), i = .ldMemVx x ∧ k ≤ x.val ∧ a = s.indexAddr k)

/-- R28 and R29: only CLS and DRW write the framebuffer; whichever of them completes sets draw_flag, and no
instruction clears it or otherwise writes it. -/
def Obligations.ScreenBelongsToClsAndDrw : Prop :=
  ∀ (i : Instr) (s t : State), s.halted = false → exec i s = .next t →
    ((i = .cls ∨ (∃ x y n, i = .drw x y n)) → t.halted = false → t.drawFlag = true) ∧
    (i ≠ .cls → (∀ x y n, i ≠ .drw x y n) → t.fb = s.fb ∧ t.drawFlag = s.drawFlag) ∧
    (s.drawFlag = true → t.drawFlag = true)

/-- R36, R40: no instruction writes the configuration (LEGACY, INDEX_OVF_FLAG, FONT), the Step's input rnd, or
anything that belongs to the host's side of the interface. (The latch is in SetKeyWritesOneLatchBit.) -/
def Obligations.InstructionsLeaveTheHostsStateAlone : Prop :=
  ∀ (i : Instr) (s t : State), exec i s = .next t →
    t.legacy = s.legacy ∧ t.indexOvf = s.indexOvf ∧
    t.mem.font = s.mem.font ∧ t.configOpen = s.configOpen ∧ t.reply = s.reply ∧ t.rnd = s.rnd ∧
    t.stepNo = s.stepNo ∧ t.pending = s.pending

/-- R23, R26, R27: I is written only by ANNN, FX1E, FX29, FX55 and FX65; of the instructions only FX15 writes DT
and only FX18 writes ST. -/
def Obligations.IndexAndTimersHaveTheirOwnWriters : Prop :=
  ∀ (i : Instr) (s t : State), exec i s = .next t →
    (t.i ≠ s.i → (∃ nnn, i = .ldI nnn) ∨
      ∃ x, i = .addI x ∨ i = .ldF x ∨ i = .ldMemVx x ∨ i = .ldVxMem x) ∧
    (t.dt ≠ s.dt → ∃ x, i = .ldDtVx x) ∧ (t.st ≠ s.st → ∃ x, i = .ldStVx x)

/-- R19 (which the spec marks as derived): an instruction writes its destination X, FX65 writes V0 to VX, and VF
is written besides by 8XY4, 8XY5, 8XY6, 8XY7, 8XYE, DXYN, and FX1E when INDEX_OVF_FLAG is set. -/
def Obligations.RegistersAreWrittenAsNamed : Prop :=
  ∀ (i : Instr) (s t : State) (r : RegIdx), exec i s = .next t → t.v[r] ≠ s.v[r] →
    (∃ nn, i = .ldImm r nn ∨ i = .addImm r nn ∨ i = .rnd r nn) ∨
    (∃ y, i ∈ [.ldReg r y, .orReg r y, .andReg r y, .xorReg r y, .addReg r y, .sub r y, .shr r y, .subn r y,
      .shl r y]) ∨
    i = .ldVxDt r ∨ i = .ldK r ∨ (∃ x, i = .ldVxMem x ∧ r ≤ x) ∨
    (r = 15 ∧ ((∃ x y, i ∈ [.addReg x y, .sub x y, .shr x y, .subn x y, .shl x y]) ∨
      (∃ x y n, i = .drw x y n) ∨ (s.indexOvf = true ∧ ∃ x, i = .addI x)))

/-- R22: every pc update, the default +2, the skips' +4, the jumps' target, RET's popped + 2, and no update for a
stalled FX0A, a fault (of the instruction, or the Fetch's own) and an unknown opcode. -/
def Obligations.PcIsUpdatedAsListed : Prop :=
  (∀ (s s0 t : State) (tickDue : Bool) (rnd : Byte), StepIssued s tickDue rnd s0 → s.halted = false →
    (4096 ≤ s.pc.toNat + 1 ∨ ∃ w e, fetch s = some w ∧ decodeWord w = .error e) →
    step s = .next t → t.pc = s.pc) ∧
  (∀ (i : Instr) (s t : State), s.halted = false → exec i s = .next t →
    (t.halted = true → t.pc = s.pc) ∧
    (t.halted = false →
      match i with
      | .jp nnn => t.pc = nnn
      | .call nnn => t.pc = nnn
      | .jpV0 nnn => t.pc.toNat = (nnn.toNat + s.v[0].toNat) % 65536
      | .ret => ∃ k : Fin 16, s.sp.val = k.val + 1 ∧ t.pc = s.stack[k] + 2
      | .seImm x nn => t.pc = s.pc + (if s.v[x] = nn then 4 else 2)
      | .sneImm x nn => t.pc = s.pc + (if s.v[x] ≠ nn then 4 else 2)
      | .seReg x y => t.pc = s.pc + (if s.v[x] = s.v[y] then 4 else 2)
      | .sneReg x y => t.pc = s.pc + (if s.v[x] ≠ s.v[y] then 4 else 2)
      | .skp x => ∃ k : Fin 16, s.v[x].toNat = k.val ∧ t.pc = s.pc + (if s.key[k] then 4 else 2)
      | .sknp x => ∃ k : Fin 16, s.v[x].toNat = k.val ∧ t.pc = s.pc + (if s.key[k] then 2 else 4)
      | .ldK _ => t.pc = if (∃ k : Fin 16, s.key[k] = true) then s.pc + 2 else s.pc
      | _ => t.pc = s.pc + 2))

/-- R31, R32: LEGACY is read only by 8XY6 and 8XYE, INDEX_OVF_FLAG only by FX1E: to every other instruction, the
same state with another value there runs alike. -/
def Obligations.ConfigurationIsReadOnlyWhereNamed : Prop :=
  ∀ (i : Instr) (s t : State) (legacy indexOvf : Bool), exec i s = .next t →
    ((∀ x y, i ≠ .shr x y ∧ i ≠ .shl x y) →
      exec i { s with legacy := legacy } = .next { t with legacy := legacy }) ∧
    ((∀ x, i ≠ .addI x) → exec i { s with indexOvf := indexOvf } = .next { t with indexOvf := indexOvf })

/-! ### Memory (spec/20_memory.md) -/

/-- Two memories in canonical form, with one FONT, that read alike at every address are the same data. (The
representation is the model's, assumption log 5.) -/
def Obligations.CanonicalMemoriesThatReadAlikeAreEqual : Prop :=
  ∀ m m' : Memory, m.wf = true → m'.wf = true → m.font = m'.font →
    (∀ a, a < 4096 → m.read a = m'.read a) → m = m'

/-- R59: the bytes that FX33 and FX55 store are what the next Fetch of their addresses sees, big-endian: every pair
of neighbouring stored bytes as one word, and every single stored byte as the high half of the word fetched at its
address and the low half of the word fetched just below it. -/
def Obligations.StoredBytesAreFetched : Prop :=
  ∀ (x : RegIdx) (s t : State),
    (s.indexAddr 2 < 4096 → exec (.ldB x) s = .next t →
      ∀ digits, digits = [s.v[x].toNat / 100, s.v[x].toNat / 10 % 10, s.v[x].toNat % 10] →
        (∃ w, fetch (t.setPc s.i) = some w ∧
          w.toNat = s.v[x].toNat / 100 * 256 + s.v[x].toNat / 10 % 10) ∧
        (∃ w, fetch (t.setPc (s.i + 1)) = some w ∧
          w.toNat = s.v[x].toNat / 10 % 10 * 256 + s.v[x].toNat % 10) ∧
        (∀ p : Word, p.toNat + 1 < 4096 → ∃ w, fetch (t.setPc p) = some w ∧
          ∀ (k : Nat) (h : k < digits.length),
            (p.toNat = s.indexAddr k → w.toNat / 256 = digits[k]) ∧
            (p.toNat + 1 = s.indexAddr k → w.toNat % 256 = digits[k]))) ∧
    (s.indexAddr x.val < 4096 → exec (.ldMemVx x) s = .next t →
      (∀ k j : RegIdx, j.val = k.val + 1 → j ≤ x →
        ∃ w, fetch (t.setPc (s.i + BitVec.ofNat 16 k.val)) = some w ∧
          w.toNat = s.v[k].toNat * 256 + s.v[j].toNat) ∧
      (∀ p : Word, p.toNat + 1 < 4096 → ∃ w, fetch (t.setPc p) = some w ∧
        ∀ k : RegIdx, k ≤ x →
          (p.toNat = s.indexAddr k.val → w.toNat / 256 = s.v[k].toNat) ∧
          (p.toNat + 1 = s.indexAddr k.val → w.toNat % 256 = s.v[k].toNat)))

/-- R56: Load copies n <= 3584 bytes to 0x200 upward and writes no other byte and no other state; a longer program
is answered RomTooLarge with nothing changed. -/
def Obligations.LoadCopiesTheProgramOrChangesNothing : Prop :=
  ∀ (s : State) (bytes : List Byte) (rest : List Txn), s.pending = .load bytes :: rest →
    ∃ t, step s = .next t ∧
      (if bytes.length > 3584 then t.reply = .romTooLarge ∧ OnlyWrites s t [.reply, .pending]
       else t.reply = .loaded ∧ (∀ (k : Nat) (h : k < bytes.length), t.mem.read (0x200 + k) = bytes[k]) ∧
         OnlyWrites s t (bytesFrom 0x200 bytes.length ++ [.reply, .pending]))

/-! ### Reset and the host's transactions (spec/10_state.md R38 to R45, spec/70_reset_and_hazards.md) -/

/-- R131, R38: a Reset transaction, served in any state, puts every element at its reset value, the font in
mem[0..79] and zeros above, and changes neither LEGACY nor INDEX_OVF_FLAG nor FONT. -/
def Obligations.ResetRestoresEveryElement : Prop :=
  ∀ (s : State) (rest : List Txn), s.pending = .reset :: rest →
    ∃ t, step s = .next t ∧
      (∀ r : RegIdx, t.v[r] = 0) ∧ t.i = 0 ∧ t.pc.toNat = 0x200 ∧ (∀ k : Fin 16, t.stack[k] = 0) ∧
      t.sp = 0 ∧ t.dt = 0 ∧ t.st = 0 ∧
      (∀ (a : Nat) (h : a < 80), t.mem.read a = s.mem.font[a]) ∧ (∀ a, 80 ≤ a → t.mem.read a = 0) ∧
      (∀ x y, pixelAt t.fb x y = false) ∧ (∀ k : Fin 16, t.key[k] = false) ∧
      t.drawFlag = false ∧ t.halted = false ∧ t.faultCode = 0 ∧
      t.legacy = s.legacy ∧ t.indexOvf = s.indexOvf ∧ t.mem.font = s.mem.font

/-- R38 of the state the machine starts in, with all sixteen glyphs of R37's default FONT, byte for byte, as its
first 80 bytes and as its FONT. (The default font is general knowledge in the spec's own words, 93 G4; assumption
log 4.) -/
def Obligations.ResetStateIsTheTabledOne : Prop :=
  let glyphs : List Byte :=
    [0xF0, 0x90, 0x90, 0x90, 0xF0,  0x20, 0x60, 0x20, 0x20, 0x70,
      0xF0, 0x10, 0xF0, 0x80, 0xF0,  0xF0, 0x10, 0xF0, 0x10, 0xF0,
      0x90, 0x90, 0xF0, 0x10, 0x10,  0xF0, 0x80, 0xF0, 0x10, 0xF0,
      0xF0, 0x80, 0xF0, 0x90, 0xF0,  0xF0, 0x10, 0x20, 0x40, 0x40] ++
    [0xF0, 0x90, 0xF0, 0x90, 0xF0,  0xF0, 0x90, 0xF0, 0x10, 0xF0,
      0xF0, 0x90, 0xF0, 0x90, 0x90,  0xE0, 0x90, 0xE0, 0x90, 0xE0,
      0xF0, 0x80, 0x80, 0x80, 0xF0,  0xE0, 0x90, 0x90, 0x90, 0xE0,
      0xF0, 0x80, 0xF0, 0x80, 0xF0,  0xF0, 0x80, 0xF0, 0x80, 0x80]
  State.reset.pc = 0x200 ∧ (∀ r : RegIdx, State.reset.v[r] = 0) ∧ State.reset.i = 0 ∧ State.reset.sp = 0 ∧
  State.reset.dt = 0 ∧ State.reset.st = 0 ∧ State.reset.halted = false ∧ State.reset.faultCode = 0 ∧
  State.reset.drawFlag = false ∧ (∀ k : Fin 16, State.reset.key[k] = false ∧ State.reset.stack[k] = 0) ∧
  (∀ x y, pixelAt State.reset.fb x y = false) ∧ (∀ a, 80 ≤ a → State.reset.mem.read a = 0) ∧
  (List.range 80).map State.reset.mem.read = glyphs ∧ State.reset.mem.font.toList = glyphs

/-- R45: SetConfig is accepted between a Reset and the first Step after it and refused at any other time: a Reset
opens it, every Step of a running core closes it, no other transaction changes that, and where it is accepted it
stores both values and nothing else. -/
def Obligations.SetConfigIsAcceptedOnlyBeforeTheFirstStep : Prop :=
  (∀ (s : State) (legacy indexOvf : Bool) (rest : List Txn), s.pending = .setConfig legacy indexOvf :: rest →
    (s.configOpen = true → ∃ t, step s = .next t ∧ t.legacy = legacy ∧ t.indexOvf = indexOvf ∧
      OnlyWrites s t [.legacy, .indexOvf, .reply, .pending]) ∧
    (s.configOpen = false → step s = .refused .setConfigAfterFirstStep)) ∧
  (∀ (s t : State), step s = .next t →
    ((∃ rest, s.pending = .reset :: rest) → t.configOpen = true) ∧
    (∀ tickDue rnd s0, StepIssued s tickDue rnd s0 → s.halted = false → t.configOpen = false) ∧
    ((∀ tickDue rnd s0, ¬StepIssued s tickDue rnd s0) → (∀ rest, s.pending ≠ .reset :: rest) →
      t.configOpen = s.configOpen))

/-- R106: SetKey writes the one latch bit it names, an index outside 0..15 has no step, and no instruction writes
the latch. -/
def Obligations.SetKeyWritesOneLatchBit : Prop :=
  (∀ (s : State) (k : Nat) (pressed : Bool) (rest : List Txn), s.pending = .setKey k pressed :: rest →
    (∀ j : Fin 16, j.val = k → ∃ t, step s = .next t ∧ t.key[j] = pressed ∧
      OnlyWrites s t [.key j, .reply, .pending]) ∧
    (15 < k → step s = .refused .setKeyOutOfRange)) ∧
  (∀ (i : Instr) (s t : State), exec i s = .next t → ∀ k : Fin 16, t.key[k] = s.key[k])

/-- R33: only the host writes the input latch, and only by SetKey or Reset: in a step that changes a latch bit one
of them was served. R31, R32: likewise LEGACY and INDEX_OVF_FLAG change only by an accepted SetConfig, and FONT
never. -/
def Obligations.LatchAndConfigurationChangeOnlyByTheHost : Prop :=
  ∀ s t : State, step s = .next t →
    (∀ k : Fin 16, t.key[k] ≠ s.key[k] →
      (∃ pressed rest, s.pending = .setKey k.val pressed :: rest) ∨ ∃ rest, s.pending = .reset :: rest) ∧
    (t.legacy ≠ s.legacy ∨ t.indexOvf ≠ s.indexOvf →
      s.configOpen = true ∧ ∃ rest, s.pending = .setConfig t.legacy t.indexOvf :: rest) ∧
    t.mem.font = s.mem.font

/-- R41, R42, R43, R40: GetPixel returns fb[x mod 64][y mod 32]; the outputs are draw_flag, ST > 1, halted,
fault_code and last_diag; ClearDrawFlag clears the flag; none of them changes anything else. -/
def Obligations.HostReadsChangeNothing : Prop :=
  (∀ (s : State) (x y : Nat) (rest : List Txn), s.pending = .getPixel x y :: rest →
    ∃ t, step s = .next t ∧ OnlyWrites s t [.reply, .pending] ∧
      ∃ (cx : Fin 64) (cy : Fin 32), cx.val = x % 64 ∧ cy.val = y % 32 ∧ t.reply = .pixel s.fb[cx][cy]) ∧
  (∀ (s : State) (rest : List Txn), s.pending = .readOutputs :: rest →
    ∃ t, step s = .next t ∧ OnlyWrites s t [.reply, .pending] ∧
      t.reply = .outputs s.drawFlag (decide (2 ≤ s.st.toNat)) s.halted s.faultCode s.lastDiag) ∧
  (∀ (s : State) (rest : List Txn), s.pending = .clearDrawFlag :: rest →
    ∃ t, step s = .next t ∧ t.drawFlag = false ∧ OnlyWrites s t [.drawFlag, .reply, .pending])

/-- R125: a Tick, and a Step whose tick is due after its instruction has run, counts each timer down by one and
never below zero, and writes nothing else; neither does so while halted. -/
def Obligations.TickCountsTheTimersDown : Prop :=
  (∀ (s : State) (rest : List Txn), s.pending = .tick :: rest →
    ∃ t, step s = .next t ∧ t.dt.toNat = s.dt.toNat - (if s.halted = true then 0 else 1) ∧
      t.st.toNat = s.st.toNat - (if s.halted = true then 0 else 1) ∧
      OnlyWrites s t [.dt, .st, .reply, .pending]) ∧
  (∀ (s s0 : State) (tickDue : Bool) (rnd : Byte) (w : Word) (i : Instr) (t : State),
    StepIssued s tickDue rnd s0 → s.halted = false → fetch s = some w → decodeWord w = .ok i →
    exec i (begun s0 rnd) = .next t →
    ∃ u, step s = .next u ∧
      u.dt.toNat = t.dt.toNat - (if tickDue = true ∧ t.halted = false then 1 else 0) ∧
      u.st.toNat = t.st.toNat - (if tickDue = true ∧ t.halted = false then 1 else 0) ∧
      OnlyWrites t u [.dt, .st])

/-- n Ticks in a row count each timer down by n and stop at zero (R125 along a run; 95 V87). -/
def Obligations.TicksInARowStopAtZero : Prop :=
  ∀ (n : Nat) (s : State) (rest : List Txn), s.pending = List.replicate n .tick ++ rest → s.halted = false →
    ∃ t : State, Sys2Proof.core.run n s = .next t ∧ t.dt.toNat = s.dt.toNat - n ∧
      t.st.toNat = s.st.toNat - n ∧ t.pending = rest ∧ OnlyWrites s t [.dt, .st, .reply, .pending]

/-! ### Control transfer (spec/40_flow.md) -/

/-- R76. -/
def Obligations.ClsClearsTheScreen : Prop :=
  ∀ s : State, ∃ t, exec .cls s = .next t ∧ (∀ x y, pixelAt t.fb x y = false) ∧ t.drawFlag = true ∧
    t.pc = s.pc + 2 ∧ OnlyWrites s t [.screen, .drawFlag, .pc]

/-- R77: RET pops an entry and goes to it plus 2, or raises StackUnderflow(pc). -/
def Obligations.RetPopsTheReturnAddress : Prop :=
  ∀ s : State,
    (∀ k : Fin 16, s.sp.val = k.val + 1 → ∃ t, exec .ret s = .next t ∧ t.sp.val = k.val ∧
      t.pc = s.stack[k] + 2 ∧ OnlyWrites s t [.sp, .pc]) ∧
    (s.sp.val = 0 → ∃ t, exec .ret s = .next t ∧ TakesFault 2 .stackUnderflow s.pc.toNat s t)

/-- R79: CALL pushes its own address and goes to NNN, or raises StackOverflow(pc). -/
def Obligations.CallPushesItsAddress : Prop :=
  ∀ (nnn : Word) (s : State),
    (∀ k : Fin 16, s.sp.val = k.val → ∃ t, exec (.call nnn) s = .next t ∧ t.stack[k] = s.pc ∧
      t.sp.val = k.val + 1 ∧ t.pc = nnn ∧ OnlyWrites s t [.stack k, .sp, .pc]) ∧
    (s.sp.val = 16 → ∃ t, exec (.call nnn) s = .next t ∧ TakesFault 1 .stackOverflow s.pc.toNat s t)

/-- "call(A) then return from address A leaves program counter at (original pc + 2) and stack pointer restored to
its pre-call value" (R79's corner case; 95 W8). -/
def Obligations.CallThenRetReturnsAfterTheCall : Prop :=
  ∀ (nnn : Word) (s : State), s.sp.val < 16 →
    ∃ t u, exec (.call nnn) s = .next t ∧ t.pc = nnn ∧ exec .ret t = .next u ∧ u.pc = s.pc + 2 ∧ u.sp = s.sp ∧
      OnlyWrites s u [.stack (Fin.ofNat 16 s.sp.val), .sp, .pc]

/-- R78. -/
def Obligations.JpGoesToItsTarget : Prop :=
  ∀ (nnn : Word) (s : State), ∃ t, exec (.jp nnn) s = .next t ∧ t.pc = nnn ∧ OnlyWrites s t [.pc]

/-- R84: the target is NNN + V0, not truncated to 12 bits. (The instruction is general knowledge in the spec's own
words, 93 G2.) -/
def Obligations.JpV0AddsV0ToItsTarget : Prop :=
  ∀ (nnn : Word) (s : State), nnn.toNat ≤ 0xFFF →
    ∃ t, exec (.jpV0 nnn) s = .next t ∧ t.pc.toNat = nnn.toNat + s.v[0].toNat ∧ OnlyWrites s t [.pc]

/-- R80 to R83: the four skips go to pc + 4 where their condition holds and to pc + 2 where not. -/
def Obligations.SkipsFollowTheirCondition : Prop :=
  ∀ (x y : RegIdx) (nn : Byte) (s : State),
    (∃ t, exec (.seImm x nn) s = .next t ∧ OnlyWrites s t [.pc] ∧
      (s.v[x] = nn → t.pc = s.pc + 4) ∧ (s.v[x] ≠ nn → t.pc = s.pc + 2)) ∧
    (∃ t, exec (.sneImm x nn) s = .next t ∧ OnlyWrites s t [.pc] ∧
      (s.v[x] ≠ nn → t.pc = s.pc + 4) ∧ (s.v[x] = nn → t.pc = s.pc + 2)) ∧
    (∃ t, exec (.seReg x y) s = .next t ∧ OnlyWrites s t [.pc] ∧
      (s.v[x] = s.v[y] → t.pc = s.pc + 4) ∧ (s.v[x] ≠ s.v[y] → t.pc = s.pc + 2)) ∧
    (∃ t, exec (.sneReg x y) s = .next t ∧ OnlyWrites s t [.pc] ∧
      (s.v[x] ≠ s.v[y] → t.pc = s.pc + 4) ∧ (s.v[x] = s.v[y] → t.pc = s.pc + 2))

/-! ### The ALU (spec/41_alu.md) -/

/-- R89, R90, R91: load immediate, add immediate without a flag, assign. -/
def Obligations.ImmediatesAndAssignWriteTheirRegister : Prop :=
  ∀ (x y : RegIdx) (nn : Byte) (s : State),
    (∃ t, exec (.ldImm x nn) s = .next t ∧ t.v[x] = nn ∧ t.pc = s.pc + 2 ∧ OnlyWrites s t [.reg x, .pc]) ∧
    (∃ t, exec (.addImm x nn) s = .next t ∧ t.v[x].toNat = (s.v[x].toNat + nn.toNat) % 256 ∧
      t.pc = s.pc + 2 ∧ OnlyWrites s t [.reg x, .pc]) ∧
    (∃ t, exec (.ldReg x y) s = .next t ∧ t.v[x] = s.v[y] ∧ t.pc = s.pc + 2 ∧ OnlyWrites s t [.reg x, .pc])

/-- R92, R93, R94: OR, AND and XOR bit by bit, in place; VF is not reset. -/
def Obligations.BitwiseOperationsWorkBitByBit : Prop :=
  ∀ (x y : RegIdx) (s : State),
    (∃ t, exec (.orReg x y) s = .next t ∧ t.pc = s.pc + 2 ∧ OnlyWrites s t [.reg x, .pc] ∧
      ∀ k < 8, t.v[x].getLsbD k = (s.v[x].getLsbD k || s.v[y].getLsbD k)) ∧
    (∃ t, exec (.andReg x y) s = .next t ∧ t.pc = s.pc + 2 ∧ OnlyWrites s t [.reg x, .pc] ∧
      ∀ k < 8, t.v[x].getLsbD k = (s.v[x].getLsbD k && s.v[y].getLsbD k)) ∧
    (∃ t, exec (.xorReg x y) s = .next t ∧ t.pc = s.pc + 2 ∧ OnlyWrites s t [.reg x, .pc] ∧
      ∀ k < 8, t.v[x].getLsbD k = (s.v[x].getLsbD k ^^ s.v[y].getLsbD k))

/-- R95: V[X] is the sum modulo 256 and VF the carry; when X = F the sum survives. -/
def Obligations.AddWritesSumAndCarry : Prop :=
  ∀ (x y : RegIdx) (s : State), ∃ t, exec (.addReg x y) s = .next t ∧
    t.v[x].toNat = (s.v[x].toNat + s.v[y].toNat) % 256 ∧
    (x ≠ 15 → t.v[(15 : RegIdx)].toNat = if s.v[x].toNat + s.v[y].toNat > 255 then 1 else 0) ∧
    t.pc = s.pc + 2 ∧ OnlyWrites s t [.reg x, .reg 15, .pc]

/-- R96, R98: V[X] is the difference modulo 256 and VF is 0 on a borrow, 1 on none; when X = F the difference
survives; LEGACY does not matter. -/
def Obligations.SubtractsWriteDifferenceAndBorrow : Prop :=
  ∀ (x y : RegIdx) (s : State),
    (∃ t, exec (.sub x y) s = .next t ∧
      t.v[x].toNat = (s.v[x].toNat + 256 - s.v[y].toNat) % 256 ∧
      (x ≠ 15 → t.v[(15 : RegIdx)].toNat = if s.v[x].toNat < s.v[y].toNat then 0 else 1) ∧
      t.pc = s.pc + 2 ∧ OnlyWrites s t [.reg x, .reg 15, .pc]) ∧
    (∃ t, exec (.subn x y) s = .next t ∧
      t.v[x].toNat = (s.v[y].toNat + 256 - s.v[x].toNat) % 256 ∧
      (x ≠ 15 → t.v[(15 : RegIdx)].toNat = if s.v[y].toNat < s.v[x].toNat then 0 else 1) ∧
      t.pc = s.pc + 2 ∧ OnlyWrites s t [.reg x, .reg 15, .pc])

/-- R97, R99: the source is V[Y] under LEGACY and V[X] otherwise; V[X] is the source shifted by one and VF the bit
shifted out; when X = F the shifted value survives. (The LEGACY = 0 source is general knowledge in the spec's own
words, 93 G5.) -/
def Obligations.ShiftsMoveTheirSourceByOne : Prop :=
  ∀ (x y : RegIdx) (s : State),
    (∃ t, exec (.shr x y) s = .next t ∧
      (∀ src, src = (if s.legacy = true then s.v[y].toNat else s.v[x].toNat) →
        t.v[x].toNat = src / 2 ∧ (x ≠ 15 → t.v[(15 : RegIdx)].toNat = src % 2)) ∧
      t.pc = s.pc + 2 ∧ OnlyWrites s t [.reg x, .reg 15, .pc]) ∧
    (∃ t, exec (.shl x y) s = .next t ∧
      (∀ src, src = (if s.legacy = true then s.v[y].toNat else s.v[x].toNat) →
        t.v[x].toNat = src * 2 % 256 ∧ (x ≠ 15 → t.v[(15 : RegIdx)].toNat = src / 128)) ∧
      t.pc = s.pc + 2 ∧ OnlyWrites s t [.reg x, .reg 15, .pc])

/-- R100: V[X] is the Step's input rnd masked with NN, for every rnd; every other instruction ignores rnd. -/
def Obligations.RndMasksTheStepsRandomByte : Prop :=
  (∀ (x : RegIdx) (nn : Byte) (s : State), ∃ t, exec (.rnd x nn) s = .next t ∧
    (∀ k < 8, t.v[x].getLsbD k = (s.rnd.getLsbD k && nn.getLsbD k)) ∧ t.pc = s.pc + 2 ∧
    OnlyWrites s t [.reg x, .pc]) ∧
  (∀ (x : RegIdx) (nn rnd : Byte) (tickDue : Bool) (s s0 : State) (w : Word),
    StepIssued s tickDue rnd s0 → s.halted = false → fetch s = some w → decodeWord w = .ok (.rnd x nn) →
    ∃ t, step s = .next t ∧ t.v[x] = rnd &&& nn) ∧
  (∀ (i : Instr) (s t : State) (rnd : Byte), (∀ x nn, i ≠ .rnd x nn) → exec i s = .next t →
    exec i { s with rnd := rnd } = .next { t with rnd := rnd })

/-! ### Display and input (spec/42_display_input.md) -/

/-- R102: exactly the pixels under a sprite bit 1 change, both coordinates wrapping; VF is 1 when a pixel went from
set to unset, else 0; or DataRange at the lowest failing address. (The origin and the bit order are general
knowledge in the spec's own words, 93 G6.) -/
def Obligations.DrwXorsTheSprite : Prop :=
  ∀ (x y : RegIdx) (n : Nat) (s : State), n ≤ 15 →
    (n = 0 ∨ s.indexAddr n ≤ 4096 → ∃ t, exec (.drw x y n) s = .next t ∧
      (∀ px py, px < 64 → py < 32 → (pixelAt t.fb px py ≠ pixelAt s.fb px py ↔
        ∃ r < n, ∃ c < 8, (s.mem.read (s.indexAddr r)).getLsbD (7 - c) = true ∧
          px = (s.v[x].toNat + c) % 64 ∧ py = (s.v[y].toNat + r) % 32)) ∧
      (t.v[(15 : RegIdx)] = 0 ∨ t.v[(15 : RegIdx)] = 1) ∧
      (t.v[(15 : RegIdx)] = 1 ↔ ∃ px py, pixelAt s.fb px py = true ∧ pixelAt t.fb px py = false) ∧
      t.drawFlag = true ∧ t.pc = s.pc + 2 ∧ OnlyWrites s t [.screen, .reg 15, .drawFlag, .pc]) ∧
    (n ≠ 0 → 4096 < s.indexAddr n → ∃ t, exec (.drw x y n) s = .next t ∧
      TakesFault 4 .dataRange (max (s.indexAddr 0) 4096) s t)

/-- Drawing the same sprite twice at the same place restores the framebuffer, and the second draw reports VF = 1
exactly when the first set a pixel (R102's corner case, which the spec marks as derived; 95 W6). -/
def Obligations.DrawingTwiceRestoresTheScreen : Prop :=
  ∀ (x y : RegIdx) (n : Nat) (s t : State), n ≤ 15 → (n = 0 ∨ s.indexAddr n ≤ 4096) →
    exec (.drw x y n) s = .next t → t.v[x] = s.v[x] → t.v[y] = s.v[y] →
    ∃ u, exec (.drw x y n) t = .next u ∧ u.fb = s.fb ∧
      (u.v[(15 : RegIdx)] = 1 ↔ ∃ px py, pixelAt s.fb px py = false ∧ pixelAt t.fb px py = true)

/-- R103, R104: SKP and SKNP test the latch bit that V[X] names, or raise KeyRange(V[X]) above 15. -/
def Obligations.KeySkipsTestTheLatch : Prop :=
  ∀ (x : RegIdx) (s : State),
    (∀ k : Fin 16, s.v[x].toNat = k.val →
      (∃ t, exec (.skp x) s = .next t ∧ OnlyWrites s t [.pc] ∧
        (s.key[k] = true → t.pc = s.pc + 4) ∧ (s.key[k] = false → t.pc = s.pc + 2)) ∧
      (∃ t, exec (.sknp x) s = .next t ∧ OnlyWrites s t [.pc] ∧
        (s.key[k] = false → t.pc = s.pc + 4) ∧ (s.key[k] = true → t.pc = s.pc + 2))) ∧
    (15 < s.v[x].toNat →
      (∃ t, exec (.skp x) s = .next t ∧ TakesFault 5 .keyRange s.v[x].toNat s t) ∧
      (∃ t, exec (.sknp x) s = .next t ∧ TakesFault 5 .keyRange s.v[x].toNat s t))

/-- R105: with a key pressed, V[X] receives the lowest-numbered one; with none, nothing at all is written. -/
def Obligations.WaitForKeyTakesTheLowestKey : Prop :=
  ∀ (x : RegIdx) (s : State),
    (∀ k : Fin 16, s.key[k] = true → (∀ j : Fin 16, j < k → s.key[j] = false) →
      ∃ t, exec (.ldK x) s = .next t ∧ t.v[x].toNat = k.val ∧ t.pc = s.pc + 2 ∧
        OnlyWrites s t [.reg x, .pc]) ∧
    ((∀ k : Fin 16, s.key[k] = false) → exec (.ldK x) s = .next s)

/-- While no key is pressed, any number of Steps at an FX0A, each with any inputs, leave pc, the registers and the
memory as they are, and the timers count down once for each Step whose tick_due is set (R105 and R126 along a run;
95 W7). -/
def Obligations.WaitForKeyStallsForEver : Prop :=
  ∀ (inputs : List (Bool × Byte)) (s : State) (rest : List Txn) (x : RegIdx) (w : Word),
    s.pending = inputs.map (fun input => .step input.1 input.2) ++ rest → s.halted = false →
    fetch s = some w → decodeWord w = .ok (.ldK x) → (∀ k : Fin 16, s.key[k] = false) →
    ∃ t : State, Sys2Proof.core.run inputs.length s = .next t ∧ t.pending = rest ∧
      t.dt.toNat = s.dt.toNat - inputs.countP (fun input => input.1) ∧
      t.st.toNat = s.st.toNat - inputs.countP (fun input => input.1) ∧
      OnlyWrites s t [.dt, .st, .rnd, .configOpen, .reply, .lastDiag, .pending]

/-! ### Index, timers, memory transfer (spec/43_index_timer_memory.md) -/

/-- R107: LD I, NNN. (The instruction is general knowledge in the spec's own words, 93 G2.) -/
def Obligations.LdISetsTheIndex : Prop :=
  ∀ (nnn : Word) (s : State), ∃ t, exec (.ldI nnn) s = .next t ∧ t.i = nnn ∧ t.pc = s.pc + 2 ∧
    OnlyWrites s t [.index, .pc]

/-- R112: LD F points I at the glyph, the full register value times 5. -/
def Obligations.LdFPointsAtTheGlyph : Prop :=
  ∀ (x : RegIdx) (s : State), ∃ t, exec (.ldF x) s = .next t ∧ t.i.toNat = s.v[x].toNat * 5 ∧
    t.pc = s.pc + 2 ∧ OnlyWrites s t [.index, .pc]

/-- R108, R109, R110: the timers are read and set, and the tone sounds from 2 upward. -/
def Obligations.TimersAreReadAndSet : Prop :=
  ∀ (x : RegIdx) (s : State),
    (∃ t, exec (.ldVxDt x) s = .next t ∧ t.v[x] = s.dt ∧ t.pc = s.pc + 2 ∧ OnlyWrites s t [.reg x, .pc]) ∧
    (∃ t, exec (.ldDtVx x) s = .next t ∧ t.dt = s.v[x] ∧ t.pc = s.pc + 2 ∧ OnlyWrites s t [.dt, .pc]) ∧
    (∃ t, exec (.ldStVx x) s = .next t ∧ t.st = s.v[x] ∧ soundActive t = decide (s.v[x].toNat > 1) ∧
      t.pc = s.pc + 2 ∧ OnlyWrites s t [.st, .pc])

/-- R111: I wraps modulo 2^16; with INDEX_OVF_FLAG VF says whether the sum exceeds 0xFFF, without it VF is
unchanged. -/
def Obligations.AddIWrapsAndFlagsWhenConfigured : Prop :=
  ∀ (x : RegIdx) (s : State), ∃ t, exec (.addI x) s = .next t ∧
    t.i.toNat = (s.i.toNat + s.v[x].toNat) % 65536 ∧ t.pc = s.pc + 2 ∧
    (s.indexOvf = true →
      t.v[(15 : RegIdx)].toNat = (if s.i.toNat + s.v[x].toNat > 0xFFF then 1 else 0) ∧
      OnlyWrites s t [.index, .reg 15, .pc]) ∧
    (s.indexOvf = false → OnlyWrites s t [.index, .pc])

/-- R113: the three decimal digits at I, I + 1, I + 2, I unchanged; or DataRange before any write. -/
def Obligations.BcdStoresThreeDigits : Prop :=
  ∀ (x : RegIdx) (s : State),
    (s.indexAddr 2 < 4096 → ∃ t, exec (.ldB x) s = .next t ∧
      (t.mem.read (s.indexAddr 0)).toNat = s.v[x].toNat / 100 ∧
      (t.mem.read (s.indexAddr 1)).toNat = s.v[x].toNat / 10 % 10 ∧
      (t.mem.read (s.indexAddr 2)).toNat = s.v[x].toNat % 10 ∧ t.pc = s.pc + 2 ∧
      OnlyWrites s t (bytesFrom (s.indexAddr 0) 3 ++ [.pc])) ∧
    (4096 ≤ s.indexAddr 2 → ∃ t, exec (.ldB x) s = .next t ∧
      TakesFault 4 .dataRange (max (s.indexAddr 0) 4096) s t)

/-- R114: V0 to VX at I to I + X, then I is I + X + 1; or DataRange before any write. -/
def Obligations.BlockStoreWritesRegistersAndAdvancesIndex : Prop :=
  ∀ (x : RegIdx) (s : State),
    (s.indexAddr x.val < 4096 → ∃ t, exec (.ldMemVx x) s = .next t ∧
      (∀ k : RegIdx, k ≤ x → t.mem.read (s.indexAddr k.val) = s.v[k]) ∧
      t.i.toNat = s.i.toNat + x.val + 1 ∧ t.pc = s.pc + 2 ∧
      OnlyWrites s t (bytesFrom (s.indexAddr 0) (x.val + 1) ++ [.index, .pc])) ∧
    (4096 ≤ s.indexAddr x.val → ∃ t, exec (.ldMemVx x) s = .next t ∧
      TakesFault 4 .dataRange (max (s.indexAddr 0) 4096) s t)

/-- R115: V0 to VX from I to I + X, then I is I + X + 1; or DataRange before any register is written. -/
def Obligations.BlockLoadReadsRegistersAndAdvancesIndex : Prop :=
  ∀ (x : RegIdx) (s : State),
    (s.indexAddr x.val < 4096 → ∃ t, exec (.ldVxMem x) s = .next t ∧
      (∀ k : RegIdx, k ≤ x → t.v[k] = s.mem.read (s.indexAddr k.val)) ∧
      t.i.toNat = s.i.toNat + x.val + 1 ∧ t.pc = s.pc + 2 ∧
      OnlyWrites s t (regsThrough x ++ [.index, .pc])) ∧
    (4096 ≤ s.indexAddr x.val → ∃ t, exec (.ldVxMem x) s = .next t ∧
      TakesFault 4 .dataRange (max (s.indexAddr 0) 4096) s t)

/-- A block store followed by a block load from the same I gives the registers back, whatever the others were set
to in between (R114 and R115 together). -/
def Obligations.BlockStoreThenLoadGivesTheRegistersBack : Prop :=
  ∀ (x : RegIdx) (s t : State) (v : Vector Byte 16), s.indexAddr x.val < 4096 →
    exec (.ldMemVx x) s = .next t →
    ∃ u, exec (.ldVxMem x) { t with i := s.i, v := v } = .next u ∧
      (∀ k : RegIdx, k ≤ x → u.v[k] = s.v[k]) ∧ (∀ k : RegIdx, x < k → u.v[k] = v[k])
end

