-- ==== Sys2Proof/Laws/Decode.lean ====
section
/-! SUPPORT. Words as numbers: the fields of a word and of a packed word, and what the masks of the opcode map
keep. -/

namespace Sys2Proof

theorem toNat_append_add {m n : Nat} (a : BitVec m) (b : BitVec n) :
    (a ++ b).toNat = a.toNat * 2 ^ n + b.toNat := by
  rw [BitVec.toNat_append, ← Nat.shiftLeft_add_eq_or_of_lt b.isLt, Nat.shiftLeft_eq]

/-! ### The fields of a word, as numbers (R64) -/

theorem opField_toNat (w : Word) : (opField w).toNat = w.toNat / 4096 := by
  simp only [opField, BitVec.extractLsb'_toNat, Nat.shiftRight_eq_div_pow]; omega

theorem xField_val (w : Word) : (xField w).val = w.toNat / 256 % 16 := by
  simp only [xField, BitVec.val_toFin, BitVec.extractLsb'_toNat, Nat.shiftRight_eq_div_pow]

theorem yField_val (w : Word) : (yField w).val = w.toNat / 16 % 16 := by
  simp only [yField, BitVec.val_toFin, BitVec.extractLsb'_toNat, Nat.shiftRight_eq_div_pow]

theorem nField_toNat (w : Word) : (nField w).toNat = w.toNat % 16 := by
  simp [nField, BitVec.extractLsb'_toNat]

theorem nnField_toNat (w : Word) : (nnField w).toNat = w.toNat % 256 := by
  simp [nnField, BitVec.extractLsb'_toNat]

theorem nnnField_toNat (w : Word) : (nnnField w).toNat = w.toNat % 4096 := by
  simp [nnnField, BitVec.extractLsb'_toNat]; omega

/-- A word is its four nibbles. -/
theorem word_eq_fields (w : Word) : w.toNat =
    (opField w).toNat * 4096 + (xField w).val * 256 + (yField w).val * 16 + (nField w).toNat := by
  rw [opField_toNat, xField_val, yField_val, nField_toNat]; omega

theorem wordOfBytes_toNat (hi lo : Byte) : (wordOfBytes hi lo).toNat = hi.toNat * 256 + lo.toNat :=
  toNat_append_add hi lo

theorem hiByte_toNat (w : Word) : (hiByte w).toNat = w.toNat / 256 := by
  simp only [hiByte, BitVec.extractLsb'_toNat, Nat.shiftRight_eq_div_pow]; omega

theorem loByte_toNat (w : Word) : (loByte w).toNat = w.toNat % 256 := by
  simp [loByte, BitVec.extractLsb'_toNat]

/-- The two bytes of a word, as memory holds them, make the word (R49, R63). -/
@[simp] theorem wordOfBytes_hiByte_loByte (w : Word) : wordOfBytes (hiByte w) (loByte w) = w := by
  apply BitVec.eq_of_toNat_eq
  rw [wordOfBytes_toNat, hiByte_toNat, loByte_toNat]; omega

/-! ### Packed words -/

theorem packXYN_toNat (op : Nibble) (x y : RegIdx) (n : Nibble) :
    (packXYN op x y n).toNat = op.toNat * 4096 + x.val * 256 + y.val * 16 + n.toNat := by
  have h1 := toNat_append_add op (BitVec.ofFin x : Nibble)
  have h2 := toNat_append_add (op ++ (BitVec.ofFin x : Nibble)) (BitVec.ofFin y : Nibble)
  have h3 : (packXYN op x y n).toNat = _ :=
    toNat_append_add (op ++ (BitVec.ofFin x : Nibble) ++ (BitVec.ofFin y : Nibble)) n
  have hx : (BitVec.ofFin x : Nibble).toNat = x.val := rfl
  have hy : (BitVec.ofFin y : Nibble).toNat = y.val := rfl
  rw [h3, h2, h1, hx, hy]
  omega

theorem packXNN_toNat (op : Nibble) (x : RegIdx) (nn : Byte) :
    (packXNN op x nn).toNat = op.toNat * 4096 + x.val * 256 + nn.toNat := by
  have h1 := toNat_append_add op (BitVec.ofFin x : Nibble)
  have h2 : (packXNN op x nn).toNat = _ := toNat_append_add (op ++ (BitVec.ofFin x : Nibble)) nn
  have hx : (BitVec.ofFin x : Nibble).toNat = x.val := rfl
  rw [h2, h1, hx]
  omega

theorem packNNN_toNat (op : Nibble) (nnn : Word) :
    (packNNN op nnn).toNat = op.toNat * 4096 + nnn.toNat % 4096 := by
  have h : (packNNN op nnn).toNat = _ := toNat_append_add op (nnn.setWidth 12)
  rw [h, BitVec.toNat_setWidth]
  rfl

section
variable (op n : Nibble) (x y : RegIdx) (nn : Byte) (nnn : Word)

@[simp] theorem opField_packXYN : opField (packXYN op x y n) = op := by
  apply BitVec.eq_of_toNat_eq; rw [opField_toNat, packXYN_toNat]; omega

@[simp] theorem xField_packXYN : xField (packXYN op x y n) = x := by
  ext; rw [xField_val, packXYN_toNat]; omega

@[simp] theorem yField_packXYN : yField (packXYN op x y n) = y := by
  ext; rw [yField_val, packXYN_toNat]; omega

@[simp] theorem nField_packXYN : nField (packXYN op x y n) = n := by
  apply BitVec.eq_of_toNat_eq; rw [nField_toNat, packXYN_toNat]; omega

@[simp] theorem opField_packXNN : opField (packXNN op x nn) = op := by
  apply BitVec.eq_of_toNat_eq; rw [opField_toNat, packXNN_toNat]; omega

@[simp] theorem xField_packXNN : xField (packXNN op x nn) = x := by
  ext; rw [xField_val, packXNN_toNat]; omega

@[simp] theorem nnField_packXNN : nnField (packXNN op x nn) = nn := by
  apply BitVec.eq_of_toNat_eq; rw [nnField_toNat, packXNN_toNat]; omega

@[simp] theorem opField_packNNN : opField (packNNN op nnn) = op := by
  apply BitVec.eq_of_toNat_eq; rw [opField_toNat, packNNN_toNat]; omega

/-- NNN comes back where it fits (R74). -/
theorem nnnField_packNNN (h : addrFits nnn = true) : nnnField (packNNN op nnn) = nnn := by
  have : nnn.toNat ≤ 0xFFF := by simpa [addrFits] using h
  apply BitVec.eq_of_toNat_eq; rw [nnnField_toNat, packNNN_toNat]; omega

/-- N comes back where it fits (R74). -/
theorem ofNat_rows_toNat (k : Nat) (h : rowsFit k = true) : (BitVec.ofNat 4 k).toNat = k := by
  have : k ≤ 0xF := by simpa [rowsFit] using h
  simp; omega

end

/-! ### The masks of the opcode map (R68) -/

theorem word_eq_packXYN (w : Word) : w = packXYN (opField w) (xField w) (yField w) (nField w) := by
  apply BitVec.eq_of_toNat_eq; rw [packXYN_toNat]; exact word_eq_fields w

theorem word_eq_packXNN (w : Word) : w = packXNN (opField w) (xField w) (nnField w) := by
  apply BitVec.eq_of_toNat_eq
  rw [packXNN_toNat, opField_toNat, xField_val, nnField_toNat]; omega

theorem packXYN_inj {op op' n n' : Nibble} {x x' y y' : RegIdx} :
    packXYN op x y n = packXYN op' x' y' n' ↔ op = op' ∧ x = x' ∧ y = y' ∧ n = n' := by
  constructor
  · intro h
    exact ⟨by simpa using congrArg opField h, by simpa using congrArg xField h,
      by simpa using congrArg yField h, by simpa using congrArg nField h⟩
  · rintro ⟨rfl, rfl, rfl, rfl⟩; rfl

theorem packXNN_inj {op op' : Nibble} {x x' : RegIdx} {nn nn' : Byte} :
    packXNN op x nn = packXNN op' x' nn' ↔ op = op' ∧ x = x' ∧ nn = nn' := by
  constructor
  · intro h
    exact ⟨by simpa using congrArg opField h, by simpa using congrArg xField h,
      by simpa using congrArg nnField h⟩
  · rintro ⟨rfl, rfl, rfl⟩; rfl

/-- Mask 0xF000 keeps op. -/
theorem and_maskOp (w : Word) : w &&& 0xF000 = packXYN (opField w) 0 0 0 := by
  conv_lhs => rw [word_eq_packXYN w]
  unfold packXYN
  rw [show (0xF000 : Word) = (0xF#4 ++ 0#4 ++ 0#4 ++ 0#4 : BitVec (4 + 4 + 4 + 4)) from by decide]
  erw [BitVec.and_append, BitVec.and_append, BitVec.and_append]
  simp only [BitVec.and_zero]
  rw [show opField w &&& 0xF#4 = opField w from BitVec.and_allOnes]
  rfl

/-- Mask 0xF00F keeps op and N. -/
theorem and_maskOpN (w : Word) : w &&& 0xF00F = packXYN (opField w) 0 0 (nField w) := by
  conv_lhs => rw [word_eq_packXYN w]
  unfold packXYN
  rw [show (0xF00F : Word) = (0xF#4 ++ 0#4 ++ 0#4 ++ 0xF#4 : BitVec (4 + 4 + 4 + 4)) from by decide]
  erw [BitVec.and_append, BitVec.and_append, BitVec.and_append]
  simp only [BitVec.and_zero]
  rw [show opField w &&& 0xF#4 = opField w from BitVec.and_allOnes,
    show nField w &&& 0xF#4 = nField w from BitVec.and_allOnes]
  rfl

/-- Mask 0xF0FF keeps op and NN. -/
theorem and_maskOpNN (w : Word) : w &&& 0xF0FF = packXNN (opField w) 0 (nnField w) := by
  conv_lhs => rw [word_eq_packXNN w]
  unfold packXNN
  rw [show (0xF0FF : Word) = (0xF#4 ++ 0#4 ++ 0xFF#8 : BitVec (4 + 4 + 8)) from by decide]
  erw [BitVec.and_append, BitVec.and_append]
  simp only [BitVec.and_zero]
  rw [show opField w &&& 0xF#4 = opField w from BitVec.and_allOnes,
    show nnField w &&& 0xFF#8 = nnField w from BitVec.and_allOnes]
  rfl

/-- Mask 0xFFF0 keeps op, X and Y. -/
theorem and_maskOpXY (w : Word) : w &&& 0xFFF0 = packXYN (opField w) (xField w) (yField w) 0 := by
  conv_lhs => rw [word_eq_packXYN w]
  unfold packXYN
  rw [show (0xFFF0 : Word) = (0xF#4 ++ 0xF#4 ++ 0xF#4 ++ 0#4 : BitVec (4 + 4 + 4 + 4)) from by decide]
  erw [BitVec.and_append, BitVec.and_append, BitVec.and_append]
  simp only [BitVec.and_zero]
  rw [show opField w &&& 0xF#4 = opField w from BitVec.and_allOnes,
    show (BitVec.ofFin (xField w) : Nibble) &&& 0xF#4 = BitVec.ofFin (xField w) from BitVec.and_allOnes,
    show (BitVec.ofFin (yField w) : Nibble) &&& 0xF#4 = BitVec.ofFin (yField w) from BitVec.and_allOnes]
  rfl

end Sys2Proof
end

