-- ==== Sys2Proof/Laws/State.lean ====
section
/-! SUPPORT. What each named update leaves in each field of State, true by rfl: later proofs rewrite with these
and unfold no record update. -/

namespace Sys2Proof.Machine

@[simp] theorem State.setV_v (s : State) (r : RegIdx) (b : Byte) : (s.setV r b).v = s.v.set r b := rfl
@[simp] theorem State.setV_pc (s : State) (r : RegIdx) (b : Byte) : (s.setV r b).pc = s.pc := rfl
@[simp] theorem State.setV_i (s : State) (r : RegIdx) (b : Byte) : (s.setV r b).i = s.i := rfl
@[simp] theorem State.setV_stack (s : State) (r : RegIdx) (b : Byte) : (s.setV r b).stack = s.stack := rfl
@[simp] theorem State.setV_sp (s : State) (r : RegIdx) (b : Byte) : (s.setV r b).sp = s.sp := rfl
@[simp] theorem State.setV_dt (s : State) (r : RegIdx) (b : Byte) : (s.setV r b).dt = s.dt := rfl
@[simp] theorem State.setV_st (s : State) (r : RegIdx) (b : Byte) : (s.setV r b).st = s.st := rfl
@[simp] theorem State.setV_mem (s : State) (r : RegIdx) (b : Byte) : (s.setV r b).mem = s.mem := rfl
@[simp] theorem State.setV_fb (s : State) (r : RegIdx) (b : Byte) : (s.setV r b).fb = s.fb := rfl
@[simp] theorem State.setV_key (s : State) (r : RegIdx) (b : Byte) : (s.setV r b).key = s.key := rfl
@[simp] theorem State.setV_drawFlag (s : State) (r : RegIdx) (b : Byte) : (s.setV r b).drawFlag = s.drawFlag := rfl
@[simp] theorem State.setV_halted (s : State) (r : RegIdx) (b : Byte) : (s.setV r b).halted = s.halted := rfl
@[simp] theorem State.setV_faultCode (s : State) (r : RegIdx) (b : Byte) : (s.setV r b).faultCode = s.faultCode := rfl
@[simp] theorem State.setV_legacy (s : State) (r : RegIdx) (b : Byte) : (s.setV r b).legacy = s.legacy := rfl
@[simp] theorem State.setV_indexOvf (s : State) (r : RegIdx) (b : Byte) : (s.setV r b).indexOvf = s.indexOvf := rfl
@[simp] theorem State.setV_lastDiag (s : State) (r : RegIdx) (b : Byte) : (s.setV r b).lastDiag = s.lastDiag := rfl
@[simp] theorem State.setV_configOpen (s : State) (r : RegIdx) (b : Byte) : (s.setV r b).configOpen = s.configOpen := rfl
@[simp] theorem State.setV_reply (s : State) (r : RegIdx) (b : Byte) : (s.setV r b).reply = s.reply := rfl
@[simp] theorem State.setV_rnd (s : State) (r : RegIdx) (b : Byte) : (s.setV r b).rnd = s.rnd := rfl
@[simp] theorem State.setV_stepNo (s : State) (r : RegIdx) (b : Byte) : (s.setV r b).stepNo = s.stepNo := rfl
@[simp] theorem State.setV_pending (s : State) (r : RegIdx) (b : Byte) : (s.setV r b).pending = s.pending := rfl

@[simp] theorem State.setI_v (s : State) (a : Word) : (s.setI a).v = s.v := rfl
@[simp] theorem State.setI_pc (s : State) (a : Word) : (s.setI a).pc = s.pc := rfl
@[simp] theorem State.setI_i (s : State) (a : Word) : (s.setI a).i = a := rfl
@[simp] theorem State.setI_stack (s : State) (a : Word) : (s.setI a).stack = s.stack := rfl
@[simp] theorem State.setI_sp (s : State) (a : Word) : (s.setI a).sp = s.sp := rfl
@[simp] theorem State.setI_dt (s : State) (a : Word) : (s.setI a).dt = s.dt := rfl
@[simp] theorem State.setI_st (s : State) (a : Word) : (s.setI a).st = s.st := rfl
@[simp] theorem State.setI_mem (s : State) (a : Word) : (s.setI a).mem = s.mem := rfl
@[simp] theorem State.setI_fb (s : State) (a : Word) : (s.setI a).fb = s.fb := rfl
@[simp] theorem State.setI_key (s : State) (a : Word) : (s.setI a).key = s.key := rfl
@[simp] theorem State.setI_drawFlag (s : State) (a : Word) : (s.setI a).drawFlag = s.drawFlag := rfl
@[simp] theorem State.setI_halted (s : State) (a : Word) : (s.setI a).halted = s.halted := rfl
@[simp] theorem State.setI_faultCode (s : State) (a : Word) : (s.setI a).faultCode = s.faultCode := rfl
@[simp] theorem State.setI_legacy (s : State) (a : Word) : (s.setI a).legacy = s.legacy := rfl
@[simp] theorem State.setI_indexOvf (s : State) (a : Word) : (s.setI a).indexOvf = s.indexOvf := rfl
@[simp] theorem State.setI_lastDiag (s : State) (a : Word) : (s.setI a).lastDiag = s.lastDiag := rfl
@[simp] theorem State.setI_configOpen (s : State) (a : Word) : (s.setI a).configOpen = s.configOpen := rfl
@[simp] theorem State.setI_reply (s : State) (a : Word) : (s.setI a).reply = s.reply := rfl
@[simp] theorem State.setI_rnd (s : State) (a : Word) : (s.setI a).rnd = s.rnd := rfl
@[simp] theorem State.setI_stepNo (s : State) (a : Word) : (s.setI a).stepNo = s.stepNo := rfl
@[simp] theorem State.setI_pending (s : State) (a : Word) : (s.setI a).pending = s.pending := rfl

@[simp] theorem State.setPc_v (s : State) (a : Word) : (s.setPc a).v = s.v := rfl
@[simp] theorem State.setPc_pc (s : State) (a : Word) : (s.setPc a).pc = a := rfl
@[simp] theorem State.setPc_i (s : State) (a : Word) : (s.setPc a).i = s.i := rfl
@[simp] theorem State.setPc_stack (s : State) (a : Word) : (s.setPc a).stack = s.stack := rfl
@[simp] theorem State.setPc_sp (s : State) (a : Word) : (s.setPc a).sp = s.sp := rfl
@[simp] theorem State.setPc_dt (s : State) (a : Word) : (s.setPc a).dt = s.dt := rfl
@[simp] theorem State.setPc_st (s : State) (a : Word) : (s.setPc a).st = s.st := rfl
@[simp] theorem State.setPc_mem (s : State) (a : Word) : (s.setPc a).mem = s.mem := rfl
@[simp] theorem State.setPc_fb (s : State) (a : Word) : (s.setPc a).fb = s.fb := rfl
@[simp] theorem State.setPc_key (s : State) (a : Word) : (s.setPc a).key = s.key := rfl
@[simp] theorem State.setPc_drawFlag (s : State) (a : Word) : (s.setPc a).drawFlag = s.drawFlag := rfl
@[simp] theorem State.setPc_halted (s : State) (a : Word) : (s.setPc a).halted = s.halted := rfl
@[simp] theorem State.setPc_faultCode (s : State) (a : Word) : (s.setPc a).faultCode = s.faultCode := rfl
@[simp] theorem State.setPc_legacy (s : State) (a : Word) : (s.setPc a).legacy = s.legacy := rfl
@[simp] theorem State.setPc_indexOvf (s : State) (a : Word) : (s.setPc a).indexOvf = s.indexOvf := rfl
@[simp] theorem State.setPc_lastDiag (s : State) (a : Word) : (s.setPc a).lastDiag = s.lastDiag := rfl
@[simp] theorem State.setPc_configOpen (s : State) (a : Word) : (s.setPc a).configOpen = s.configOpen := rfl
@[simp] theorem State.setPc_reply (s : State) (a : Word) : (s.setPc a).reply = s.reply := rfl
@[simp] theorem State.setPc_rnd (s : State) (a : Word) : (s.setPc a).rnd = s.rnd := rfl
@[simp] theorem State.setPc_stepNo (s : State) (a : Word) : (s.setPc a).stepNo = s.stepNo := rfl
@[simp] theorem State.setPc_pending (s : State) (a : Word) : (s.setPc a).pending = s.pending := rfl

@[simp] theorem State.setDt_v (s : State) (b : Byte) : (s.setDt b).v = s.v := rfl
@[simp] theorem State.setDt_pc (s : State) (b : Byte) : (s.setDt b).pc = s.pc := rfl
@[simp] theorem State.setDt_i (s : State) (b : Byte) : (s.setDt b).i = s.i := rfl
@[simp] theorem State.setDt_stack (s : State) (b : Byte) : (s.setDt b).stack = s.stack := rfl
@[simp] theorem State.setDt_sp (s : State) (b : Byte) : (s.setDt b).sp = s.sp := rfl
@[simp] theorem State.setDt_dt (s : State) (b : Byte) : (s.setDt b).dt = b := rfl
@[simp] theorem State.setDt_st (s : State) (b : Byte) : (s.setDt b).st = s.st := rfl
@[simp] theorem State.setDt_mem (s : State) (b : Byte) : (s.setDt b).mem = s.mem := rfl
@[simp] theorem State.setDt_fb (s : State) (b : Byte) : (s.setDt b).fb = s.fb := rfl
@[simp] theorem State.setDt_key (s : State) (b : Byte) : (s.setDt b).key = s.key := rfl
@[simp] theorem State.setDt_drawFlag (s : State) (b : Byte) : (s.setDt b).drawFlag = s.drawFlag := rfl
@[simp] theorem State.setDt_halted (s : State) (b : Byte) : (s.setDt b).halted = s.halted := rfl
@[simp] theorem State.setDt_faultCode (s : State) (b : Byte) : (s.setDt b).faultCode = s.faultCode := rfl
@[simp] theorem State.setDt_legacy (s : State) (b : Byte) : (s.setDt b).legacy = s.legacy := rfl
@[simp] theorem State.setDt_indexOvf (s : State) (b : Byte) : (s.setDt b).indexOvf = s.indexOvf := rfl
@[simp] theorem State.setDt_lastDiag (s : State) (b : Byte) : (s.setDt b).lastDiag = s.lastDiag := rfl
@[simp] theorem State.setDt_configOpen (s : State) (b : Byte) : (s.setDt b).configOpen = s.configOpen := rfl
@[simp] theorem State.setDt_reply (s : State) (b : Byte) : (s.setDt b).reply = s.reply := rfl
@[simp] theorem State.setDt_rnd (s : State) (b : Byte) : (s.setDt b).rnd = s.rnd := rfl
@[simp] theorem State.setDt_stepNo (s : State) (b : Byte) : (s.setDt b).stepNo = s.stepNo := rfl
@[simp] theorem State.setDt_pending (s : State) (b : Byte) : (s.setDt b).pending = s.pending := rfl

@[simp] theorem State.setSt_v (s : State) (b : Byte) : (s.setSt b).v = s.v := rfl
@[simp] theorem State.setSt_pc (s : State) (b : Byte) : (s.setSt b).pc = s.pc := rfl
@[simp] theorem State.setSt_i (s : State) (b : Byte) : (s.setSt b).i = s.i := rfl
@[simp] theorem State.setSt_stack (s : State) (b : Byte) : (s.setSt b).stack = s.stack := rfl
@[simp] theorem State.setSt_sp (s : State) (b : Byte) : (s.setSt b).sp = s.sp := rfl
@[simp] theorem State.setSt_dt (s : State) (b : Byte) : (s.setSt b).dt = s.dt := rfl
@[simp] theorem State.setSt_st (s : State) (b : Byte) : (s.setSt b).st = b := rfl
@[simp] theorem State.setSt_mem (s : State) (b : Byte) : (s.setSt b).mem = s.mem := rfl
@[simp] theorem State.setSt_fb (s : State) (b : Byte) : (s.setSt b).fb = s.fb := rfl
@[simp] theorem State.setSt_key (s : State) (b : Byte) : (s.setSt b).key = s.key := rfl
@[simp] theorem State.setSt_drawFlag (s : State) (b : Byte) : (s.setSt b).drawFlag = s.drawFlag := rfl
@[simp] theorem State.setSt_halted (s : State) (b : Byte) : (s.setSt b).halted = s.halted := rfl
@[simp] theorem State.setSt_faultCode (s : State) (b : Byte) : (s.setSt b).faultCode = s.faultCode := rfl
@[simp] theorem State.setSt_legacy (s : State) (b : Byte) : (s.setSt b).legacy = s.legacy := rfl
@[simp] theorem State.setSt_indexOvf (s : State) (b : Byte) : (s.setSt b).indexOvf = s.indexOvf := rfl
@[simp] theorem State.setSt_lastDiag (s : State) (b : Byte) : (s.setSt b).lastDiag = s.lastDiag := rfl
@[simp] theorem State.setSt_configOpen (s : State) (b : Byte) : (s.setSt b).configOpen = s.configOpen := rfl
@[simp] theorem State.setSt_reply (s : State) (b : Byte) : (s.setSt b).reply = s.reply := rfl
@[simp] theorem State.setSt_rnd (s : State) (b : Byte) : (s.setSt b).rnd = s.rnd := rfl
@[simp] theorem State.setSt_stepNo (s : State) (b : Byte) : (s.setSt b).stepNo = s.stepNo := rfl
@[simp] theorem State.setSt_pending (s : State) (b : Byte) : (s.setSt b).pending = s.pending := rfl

@[simp] theorem State.setMem_v (s : State) (m : Memory) : (s.setMem m).v = s.v := rfl
@[simp] theorem State.setMem_pc (s : State) (m : Memory) : (s.setMem m).pc = s.pc := rfl
@[simp] theorem State.setMem_i (s : State) (m : Memory) : (s.setMem m).i = s.i := rfl
@[simp] theorem State.setMem_stack (s : State) (m : Memory) : (s.setMem m).stack = s.stack := rfl
@[simp] theorem State.setMem_sp (s : State) (m : Memory) : (s.setMem m).sp = s.sp := rfl
@[simp] theorem State.setMem_dt (s : State) (m : Memory) : (s.setMem m).dt = s.dt := rfl
@[simp] theorem State.setMem_st (s : State) (m : Memory) : (s.setMem m).st = s.st := rfl
@[simp] theorem State.setMem_mem (s : State) (m : Memory) : (s.setMem m).mem = m := rfl
@[simp] theorem State.setMem_fb (s : State) (m : Memory) : (s.setMem m).fb = s.fb := rfl
@[simp] theorem State.setMem_key (s : State) (m : Memory) : (s.setMem m).key = s.key := rfl
@[simp] theorem State.setMem_drawFlag (s : State) (m : Memory) : (s.setMem m).drawFlag = s.drawFlag := rfl
@[simp] theorem State.setMem_halted (s : State) (m : Memory) : (s.setMem m).halted = s.halted := rfl
@[simp] theorem State.setMem_faultCode (s : State) (m : Memory) : (s.setMem m).faultCode = s.faultCode := rfl
@[simp] theorem State.setMem_legacy (s : State) (m : Memory) : (s.setMem m).legacy = s.legacy := rfl
@[simp] theorem State.setMem_indexOvf (s : State) (m : Memory) : (s.setMem m).indexOvf = s.indexOvf := rfl
@[simp] theorem State.setMem_lastDiag (s : State) (m : Memory) : (s.setMem m).lastDiag = s.lastDiag := rfl
@[simp] theorem State.setMem_configOpen (s : State) (m : Memory) : (s.setMem m).configOpen = s.configOpen := rfl
@[simp] theorem State.setMem_reply (s : State) (m : Memory) : (s.setMem m).reply = s.reply := rfl
@[simp] theorem State.setMem_rnd (s : State) (m : Memory) : (s.setMem m).rnd = s.rnd := rfl
@[simp] theorem State.setMem_stepNo (s : State) (m : Memory) : (s.setMem m).stepNo = s.stepNo := rfl
@[simp] theorem State.setMem_pending (s : State) (m : Memory) : (s.setMem m).pending = s.pending := rfl

@[simp] theorem State.setScreen_v (s : State) (fb : Framebuffer) : (s.setScreen fb).v = s.v := rfl
@[simp] theorem State.setScreen_pc (s : State) (fb : Framebuffer) : (s.setScreen fb).pc = s.pc := rfl
@[simp] theorem State.setScreen_i (s : State) (fb : Framebuffer) : (s.setScreen fb).i = s.i := rfl
@[simp] theorem State.setScreen_stack (s : State) (fb : Framebuffer) : (s.setScreen fb).stack = s.stack := rfl
@[simp] theorem State.setScreen_sp (s : State) (fb : Framebuffer) : (s.setScreen fb).sp = s.sp := rfl
@[simp] theorem State.setScreen_dt (s : State) (fb : Framebuffer) : (s.setScreen fb).dt = s.dt := rfl
@[simp] theorem State.setScreen_st (s : State) (fb : Framebuffer) : (s.setScreen fb).st = s.st := rfl
@[simp] theorem State.setScreen_mem (s : State) (fb : Framebuffer) : (s.setScreen fb).mem = s.mem := rfl
@[simp] theorem State.setScreen_fb (s : State) (fb : Framebuffer) : (s.setScreen fb).fb = fb := rfl
@[simp] theorem State.setScreen_key (s : State) (fb : Framebuffer) : (s.setScreen fb).key = s.key := rfl
@[simp] theorem State.setScreen_drawFlag (s : State) (fb : Framebuffer) : (s.setScreen fb).drawFlag = true := rfl
@[simp] theorem State.setScreen_halted (s : State) (fb : Framebuffer) : (s.setScreen fb).halted = s.halted := rfl
@[simp] theorem State.setScreen_faultCode (s : State) (fb : Framebuffer) : (s.setScreen fb).faultCode = s.faultCode := rfl
@[simp] theorem State.setScreen_legacy (s : State) (fb : Framebuffer) : (s.setScreen fb).legacy = s.legacy := rfl
@[simp] theorem State.setScreen_indexOvf (s : State) (fb : Framebuffer) : (s.setScreen fb).indexOvf = s.indexOvf := rfl
@[simp] theorem State.setScreen_lastDiag (s : State) (fb : Framebuffer) : (s.setScreen fb).lastDiag = s.lastDiag := rfl
@[simp] theorem State.setScreen_configOpen (s : State) (fb : Framebuffer) : (s.setScreen fb).configOpen = s.configOpen := rfl
@[simp] theorem State.setScreen_reply (s : State) (fb : Framebuffer) : (s.setScreen fb).reply = s.reply := rfl
@[simp] theorem State.setScreen_rnd (s : State) (fb : Framebuffer) : (s.setScreen fb).rnd = s.rnd := rfl
@[simp] theorem State.setScreen_stepNo (s : State) (fb : Framebuffer) : (s.setScreen fb).stepNo = s.stepNo := rfl
@[simp] theorem State.setScreen_pending (s : State) (fb : Framebuffer) : (s.setScreen fb).pending = s.pending := rfl

@[simp] theorem State.advance_v (s : State) : s.advance.v = s.v := rfl
@[simp] theorem State.advance_pc (s : State) : s.advance.pc = s.pc + 2 := rfl
@[simp] theorem State.advance_i (s : State) : s.advance.i = s.i := rfl
@[simp] theorem State.advance_stack (s : State) : s.advance.stack = s.stack := rfl
@[simp] theorem State.advance_sp (s : State) : s.advance.sp = s.sp := rfl
@[simp] theorem State.advance_dt (s : State) : s.advance.dt = s.dt := rfl
@[simp] theorem State.advance_st (s : State) : s.advance.st = s.st := rfl
@[simp] theorem State.advance_mem (s : State) : s.advance.mem = s.mem := rfl
@[simp] theorem State.advance_fb (s : State) : s.advance.fb = s.fb := rfl
@[simp] theorem State.advance_key (s : State) : s.advance.key = s.key := rfl
@[simp] theorem State.advance_drawFlag (s : State) : s.advance.drawFlag = s.drawFlag := rfl
@[simp] theorem State.advance_halted (s : State) : s.advance.halted = s.halted := rfl
@[simp] theorem State.advance_faultCode (s : State) : s.advance.faultCode = s.faultCode := rfl
@[simp] theorem State.advance_legacy (s : State) : s.advance.legacy = s.legacy := rfl
@[simp] theorem State.advance_indexOvf (s : State) : s.advance.indexOvf = s.indexOvf := rfl
@[simp] theorem State.advance_lastDiag (s : State) : s.advance.lastDiag = s.lastDiag := rfl
@[simp] theorem State.advance_configOpen (s : State) : s.advance.configOpen = s.configOpen := rfl
@[simp] theorem State.advance_reply (s : State) : s.advance.reply = s.reply := rfl
@[simp] theorem State.advance_rnd (s : State) : s.advance.rnd = s.rnd := rfl
@[simp] theorem State.advance_stepNo (s : State) : s.advance.stepNo = s.stepNo := rfl
@[simp] theorem State.advance_pending (s : State) : s.advance.pending = s.pending := rfl

@[simp] theorem State.skipIf_v (s : State) (c : Bool) : (s.skipIf c).v = s.v := rfl
@[simp] theorem State.skipIf_pc (s : State) (c : Bool) : (s.skipIf c).pc = s.pc + if c then 4 else 2 := rfl
@[simp] theorem State.skipIf_i (s : State) (c : Bool) : (s.skipIf c).i = s.i := rfl
@[simp] theorem State.skipIf_stack (s : State) (c : Bool) : (s.skipIf c).stack = s.stack := rfl
@[simp] theorem State.skipIf_sp (s : State) (c : Bool) : (s.skipIf c).sp = s.sp := rfl
@[simp] theorem State.skipIf_dt (s : State) (c : Bool) : (s.skipIf c).dt = s.dt := rfl
@[simp] theorem State.skipIf_st (s : State) (c : Bool) : (s.skipIf c).st = s.st := rfl
@[simp] theorem State.skipIf_mem (s : State) (c : Bool) : (s.skipIf c).mem = s.mem := rfl
@[simp] theorem State.skipIf_fb (s : State) (c : Bool) : (s.skipIf c).fb = s.fb := rfl
@[simp] theorem State.skipIf_key (s : State) (c : Bool) : (s.skipIf c).key = s.key := rfl
@[simp] theorem State.skipIf_drawFlag (s : State) (c : Bool) : (s.skipIf c).drawFlag = s.drawFlag := rfl
@[simp] theorem State.skipIf_halted (s : State) (c : Bool) : (s.skipIf c).halted = s.halted := rfl
@[simp] theorem State.skipIf_faultCode (s : State) (c : Bool) : (s.skipIf c).faultCode = s.faultCode := rfl
@[simp] theorem State.skipIf_legacy (s : State) (c : Bool) : (s.skipIf c).legacy = s.legacy := rfl
@[simp] theorem State.skipIf_indexOvf (s : State) (c : Bool) : (s.skipIf c).indexOvf = s.indexOvf := rfl
@[simp] theorem State.skipIf_lastDiag (s : State) (c : Bool) : (s.skipIf c).lastDiag = s.lastDiag := rfl
@[simp] theorem State.skipIf_configOpen (s : State) (c : Bool) : (s.skipIf c).configOpen = s.configOpen := rfl
@[simp] theorem State.skipIf_reply (s : State) (c : Bool) : (s.skipIf c).reply = s.reply := rfl
@[simp] theorem State.skipIf_rnd (s : State) (c : Bool) : (s.skipIf c).rnd = s.rnd := rfl
@[simp] theorem State.skipIf_stepNo (s : State) (c : Bool) : (s.skipIf c).stepNo = s.stepNo := rfl
@[simp] theorem State.skipIf_pending (s : State) (c : Bool) : (s.skipIf c).pending = s.pending := rfl

@[simp] theorem State.setFlagThenResult_v (s : State) (x : RegIdx) (f b : Byte) : (s.setFlagThenResult x f b).v = (s.v.set 15 f).set x b := rfl
@[simp] theorem State.setFlagThenResult_pc (s : State) (x : RegIdx) (f b : Byte) : (s.setFlagThenResult x f b).pc = s.pc := rfl
@[simp] theorem State.setFlagThenResult_i (s : State) (x : RegIdx) (f b : Byte) : (s.setFlagThenResult x f b).i = s.i := rfl
@[simp] theorem State.setFlagThenResult_stack (s : State) (x : RegIdx) (f b : Byte) : (s.setFlagThenResult x f b).stack = s.stack := rfl
@[simp] theorem State.setFlagThenResult_sp (s : State) (x : RegIdx) (f b : Byte) : (s.setFlagThenResult x f b).sp = s.sp := rfl
@[simp] theorem State.setFlagThenResult_dt (s : State) (x : RegIdx) (f b : Byte) : (s.setFlagThenResult x f b).dt = s.dt := rfl
@[simp] theorem State.setFlagThenResult_st (s : State) (x : RegIdx) (f b : Byte) : (s.setFlagThenResult x f b).st = s.st := rfl
@[simp] theorem State.setFlagThenResult_mem (s : State) (x : RegIdx) (f b : Byte) : (s.setFlagThenResult x f b).mem = s.mem := rfl
@[simp] theorem State.setFlagThenResult_fb (s : State) (x : RegIdx) (f b : Byte) : (s.setFlagThenResult x f b).fb = s.fb := rfl
@[simp] theorem State.setFlagThenResult_key (s : State) (x : RegIdx) (f b : Byte) : (s.setFlagThenResult x f b).key = s.key := rfl
@[simp] theorem State.setFlagThenResult_drawFlag (s : State) (x : RegIdx) (f b : Byte) : (s.setFlagThenResult x f b).drawFlag = s.drawFlag := rfl
@[simp] theorem State.setFlagThenResult_halted (s : State) (x : RegIdx) (f b : Byte) : (s.setFlagThenResult x f b).halted = s.halted := rfl
@[simp] theorem State.setFlagThenResult_faultCode (s : State) (x : RegIdx) (f b : Byte) : (s.setFlagThenResult x f b).faultCode = s.faultCode := rfl
@[simp] theorem State.setFlagThenResult_legacy (s : State) (x : RegIdx) (f b : Byte) : (s.setFlagThenResult x f b).legacy = s.legacy := rfl
@[simp] theorem State.setFlagThenResult_indexOvf (s : State) (x : RegIdx) (f b : Byte) : (s.setFlagThenResult x f b).indexOvf = s.indexOvf := rfl
@[simp] theorem State.setFlagThenResult_lastDiag (s : State) (x : RegIdx) (f b : Byte) : (s.setFlagThenResult x f b).lastDiag = s.lastDiag := rfl
@[simp] theorem State.setFlagThenResult_configOpen (s : State) (x : RegIdx) (f b : Byte) : (s.setFlagThenResult x f b).configOpen = s.configOpen := rfl
@[simp] theorem State.setFlagThenResult_reply (s : State) (x : RegIdx) (f b : Byte) : (s.setFlagThenResult x f b).reply = s.reply := rfl
@[simp] theorem State.setFlagThenResult_rnd (s : State) (x : RegIdx) (f b : Byte) : (s.setFlagThenResult x f b).rnd = s.rnd := rfl
@[simp] theorem State.setFlagThenResult_stepNo (s : State) (x : RegIdx) (f b : Byte) : (s.setFlagThenResult x f b).stepNo = s.stepNo := rfl
@[simp] theorem State.setFlagThenResult_pending (s : State) (x : RegIdx) (f b : Byte) : (s.setFlagThenResult x f b).pending = s.pending := rfl

@[simp] theorem raiseFault_v (c : FaultCause) (n : Nat) (s : State) : (raiseFault c n s).v = s.v := rfl
@[simp] theorem raiseFault_pc (c : FaultCause) (n : Nat) (s : State) : (raiseFault c n s).pc = s.pc := rfl
@[simp] theorem raiseFault_i (c : FaultCause) (n : Nat) (s : State) : (raiseFault c n s).i = s.i := rfl
@[simp] theorem raiseFault_stack (c : FaultCause) (n : Nat) (s : State) : (raiseFault c n s).stack = s.stack := rfl
@[simp] theorem raiseFault_sp (c : FaultCause) (n : Nat) (s : State) : (raiseFault c n s).sp = s.sp := rfl
@[simp] theorem raiseFault_dt (c : FaultCause) (n : Nat) (s : State) : (raiseFault c n s).dt = s.dt := rfl
@[simp] theorem raiseFault_st (c : FaultCause) (n : Nat) (s : State) : (raiseFault c n s).st = s.st := rfl
@[simp] theorem raiseFault_mem (c : FaultCause) (n : Nat) (s : State) : (raiseFault c n s).mem = s.mem := rfl
@[simp] theorem raiseFault_fb (c : FaultCause) (n : Nat) (s : State) : (raiseFault c n s).fb = s.fb := rfl
@[simp] theorem raiseFault_key (c : FaultCause) (n : Nat) (s : State) : (raiseFault c n s).key = s.key := rfl
@[simp] theorem raiseFault_drawFlag (c : FaultCause) (n : Nat) (s : State) : (raiseFault c n s).drawFlag = s.drawFlag := rfl
@[simp] theorem raiseFault_halted (c : FaultCause) (n : Nat) (s : State) : (raiseFault c n s).halted = true := rfl
@[simp] theorem raiseFault_faultCode (c : FaultCause) (n : Nat) (s : State) : (raiseFault c n s).faultCode = c.code := rfl
@[simp] theorem raiseFault_legacy (c : FaultCause) (n : Nat) (s : State) : (raiseFault c n s).legacy = s.legacy := rfl
@[simp] theorem raiseFault_indexOvf (c : FaultCause) (n : Nat) (s : State) : (raiseFault c n s).indexOvf = s.indexOvf := rfl
@[simp] theorem raiseFault_lastDiag (c : FaultCause) (n : Nat) (s : State) : (raiseFault c n s).lastDiag = .fault c n := rfl
@[simp] theorem raiseFault_configOpen (c : FaultCause) (n : Nat) (s : State) : (raiseFault c n s).configOpen = s.configOpen := rfl
@[simp] theorem raiseFault_reply (c : FaultCause) (n : Nat) (s : State) : (raiseFault c n s).reply = s.reply := rfl
@[simp] theorem raiseFault_rnd (c : FaultCause) (n : Nat) (s : State) : (raiseFault c n s).rnd = s.rnd := rfl
@[simp] theorem raiseFault_stepNo (c : FaultCause) (n : Nat) (s : State) : (raiseFault c n s).stepNo = s.stepNo := rfl
@[simp] theorem raiseFault_pending (c : FaultCause) (n : Nat) (s : State) : (raiseFault c n s).pending = s.pending := rfl

@[simp] theorem timerTick_v (due : Bool) (s : State) : (timerTick due s).v = s.v := rfl
@[simp] theorem timerTick_pc (due : Bool) (s : State) : (timerTick due s).pc = s.pc := rfl
@[simp] theorem timerTick_i (due : Bool) (s : State) : (timerTick due s).i = s.i := rfl
@[simp] theorem timerTick_stack (due : Bool) (s : State) : (timerTick due s).stack = s.stack := rfl
@[simp] theorem timerTick_sp (due : Bool) (s : State) : (timerTick due s).sp = s.sp := rfl
@[simp] theorem timerTick_dt (due : Bool) (s : State) : (timerTick due s).dt = if due then countDown s.dt else s.dt := rfl
@[simp] theorem timerTick_st (due : Bool) (s : State) : (timerTick due s).st = if due then countDown s.st else s.st := rfl
@[simp] theorem timerTick_mem (due : Bool) (s : State) : (timerTick due s).mem = s.mem := rfl
@[simp] theorem timerTick_fb (due : Bool) (s : State) : (timerTick due s).fb = s.fb := rfl
@[simp] theorem timerTick_key (due : Bool) (s : State) : (timerTick due s).key = s.key := rfl
@[simp] theorem timerTick_drawFlag (due : Bool) (s : State) : (timerTick due s).drawFlag = s.drawFlag := rfl
@[simp] theorem timerTick_halted (due : Bool) (s : State) : (timerTick due s).halted = s.halted := rfl
@[simp] theorem timerTick_faultCode (due : Bool) (s : State) : (timerTick due s).faultCode = s.faultCode := rfl
@[simp] theorem timerTick_legacy (due : Bool) (s : State) : (timerTick due s).legacy = s.legacy := rfl
@[simp] theorem timerTick_indexOvf (due : Bool) (s : State) : (timerTick due s).indexOvf = s.indexOvf := rfl
@[simp] theorem timerTick_lastDiag (due : Bool) (s : State) : (timerTick due s).lastDiag = s.lastDiag := rfl
@[simp] theorem timerTick_configOpen (due : Bool) (s : State) : (timerTick due s).configOpen = s.configOpen := rfl
@[simp] theorem timerTick_reply (due : Bool) (s : State) : (timerTick due s).reply = s.reply := rfl
@[simp] theorem timerTick_rnd (due : Bool) (s : State) : (timerTick due s).rnd = s.rnd := rfl
@[simp] theorem timerTick_stepNo (due : Bool) (s : State) : (timerTick due s).stepNo = s.stepNo := rfl
@[simp] theorem timerTick_pending (due : Bool) (s : State) : (timerTick due s).pending = s.pending := rfl

@[simp] theorem begun_v (s : State) (b : Byte) : (begun s b).v = s.v := rfl
@[simp] theorem begun_pc (s : State) (b : Byte) : (begun s b).pc = s.pc := rfl
@[simp] theorem begun_i (s : State) (b : Byte) : (begun s b).i = s.i := rfl
@[simp] theorem begun_stack (s : State) (b : Byte) : (begun s b).stack = s.stack := rfl
@[simp] theorem begun_sp (s : State) (b : Byte) : (begun s b).sp = s.sp := rfl
@[simp] theorem begun_dt (s : State) (b : Byte) : (begun s b).dt = s.dt := rfl
@[simp] theorem begun_st (s : State) (b : Byte) : (begun s b).st = s.st := rfl
@[simp] theorem begun_mem (s : State) (b : Byte) : (begun s b).mem = s.mem := rfl
@[simp] theorem begun_fb (s : State) (b : Byte) : (begun s b).fb = s.fb := rfl
@[simp] theorem begun_key (s : State) (b : Byte) : (begun s b).key = s.key := rfl
@[simp] theorem begun_drawFlag (s : State) (b : Byte) : (begun s b).drawFlag = s.drawFlag := rfl
@[simp] theorem begun_halted (s : State) (b : Byte) : (begun s b).halted = s.halted := rfl
@[simp] theorem begun_faultCode (s : State) (b : Byte) : (begun s b).faultCode = s.faultCode := rfl
@[simp] theorem begun_legacy (s : State) (b : Byte) : (begun s b).legacy = s.legacy := rfl
@[simp] theorem begun_indexOvf (s : State) (b : Byte) : (begun s b).indexOvf = s.indexOvf := rfl
@[simp] theorem begun_lastDiag (s : State) (b : Byte) : (begun s b).lastDiag = .ok := rfl
@[simp] theorem begun_configOpen (s : State) (b : Byte) : (begun s b).configOpen = false := rfl
@[simp] theorem begun_reply (s : State) (b : Byte) : (begun s b).reply = .stepped := rfl
@[simp] theorem begun_rnd (s : State) (b : Byte) : (begun s b).rnd = b := rfl
@[simp] theorem begun_stepNo (s : State) (b : Byte) : (begun s b).stepNo = s.stepNo := rfl
@[simp] theorem begun_pending (s : State) (b : Byte) : (begun s b).pending = s.pending := rfl

@[simp] theorem resetCore_v (s : State) : (resetCore s).v = Vector.replicate 16 0 := rfl
@[simp] theorem resetCore_pc (s : State) : (resetCore s).pc = 0x200 := rfl
@[simp] theorem resetCore_i (s : State) : (resetCore s).i = 0 := rfl
@[simp] theorem resetCore_stack (s : State) : (resetCore s).stack = Vector.replicate 16 0 := rfl
@[simp] theorem resetCore_sp (s : State) : (resetCore s).sp = 0 := rfl
@[simp] theorem resetCore_dt (s : State) : (resetCore s).dt = 0 := rfl
@[simp] theorem resetCore_st (s : State) : (resetCore s).st = 0 := rfl
@[simp] theorem resetCore_mem (s : State) : (resetCore s).mem = ⟨s.mem.font, []⟩ := rfl
@[simp] theorem resetCore_fb (s : State) : (resetCore s).fb = blankScreen := rfl
@[simp] theorem resetCore_key (s : State) : (resetCore s).key = Vector.replicate 16 false := rfl
@[simp] theorem resetCore_drawFlag (s : State) : (resetCore s).drawFlag = false := rfl
@[simp] theorem resetCore_halted (s : State) : (resetCore s).halted = false := rfl
@[simp] theorem resetCore_faultCode (s : State) : (resetCore s).faultCode = 0 := rfl
@[simp] theorem resetCore_legacy (s : State) : (resetCore s).legacy = s.legacy := rfl
@[simp] theorem resetCore_indexOvf (s : State) : (resetCore s).indexOvf = s.indexOvf := rfl
@[simp] theorem resetCore_lastDiag (s : State) : (resetCore s).lastDiag = .ok := rfl
@[simp] theorem resetCore_configOpen (s : State) : (resetCore s).configOpen = true := rfl
@[simp] theorem resetCore_reply (s : State) : (resetCore s).reply = .done := rfl
@[simp] theorem resetCore_rnd (s : State) : (resetCore s).rnd = s.rnd := rfl
@[simp] theorem resetCore_stepNo (s : State) : (resetCore s).stepNo = s.stepNo := rfl
@[simp] theorem resetCore_pending (s : State) : (resetCore s).pending = s.pending := rfl

end Sys2Proof.Machine
end

