-- ==== Sys2Proof/Laws/Memory.lean ====
section
/-! SUPPORT. The laws of memory: a read after a write, every other address left alone, and the canonical form
kept by every operation. -/

namespace Sys2Proof.Machine

theorem lookupCell_filter_ne (cs : List Host.Cell) (a a' : Nat) :
    lookupCell (cs.filter (fun c => c.1 != a)) a' = if a' = a then none else lookupCell cs a' := by
  induction cs with
  | nil => simp [lookupCell]
  | cons c cs ih =>
    by_cases hc : c.1 = a
    · simp only [List.filter_cons, hc, bne_self_eq_false, Bool.false_eq_true, if_false, ih, lookupCell]
      split <;> simp_all [eq_comm]
    · simp only [List.filter_cons, bne_iff_ne, ne_eq, hc, not_false_eq_true, if_true, lookupCell, ih]
      by_cases h : c.1 = a' <;> simp_all

theorem lookupCell_insertCell (cs : List Host.Cell) (c : Host.Cell) (a : Nat)
    (h : ∀ d ∈ cs, d.1 ≠ c.1) :
    lookupCell (insertCell c cs) a = if a = c.1 then some c.2 else lookupCell cs a := by
  induction cs with
  | nil => simp [insertCell, lookupCell, eq_comm]
  | cons d ds ih =>
    have hd := h d (by simp)
    have ih := ih fun e he => h e (by simp [he])
    unfold insertCell
    split
    · simp [lookupCell, eq_comm]
    · simp only [lookupCell, ih]
      by_cases h1 : d.1 = a
      · simp [h1, show a ≠ c.1 from h1 ▸ hd]
      · simp [h1]

@[simp] theorem Memory.write_font (m : Memory) (a : Nat) (b : Byte) : (m.write a b).font = m.font := by
  unfold Memory.write; split <;> rfl

@[simp] theorem Memory.unlisted_write (m : Memory) (a a' : Nat) (b : Byte) :
    (m.write a b).unlisted a' = m.unlisted a' := by
  simp [Memory.unlisted]

/-- A read after a write: the written byte at its address, every other address as before. -/
theorem Memory.read_write (m : Memory) (a a' : Nat) (b : Byte) :
    (m.write a b).read a' = if a' = a ∧ a < Config.memSize then b else m.read a' := by
  by_cases ha : a < Config.memSize
  · simp only [Memory.read, Memory.unlisted_write]
    by_cases hb : b = m.unlisted a
    · simp only [Memory.write, ha, if_true, hb, lookupCell_filter_ne, and_true]
      split <;> simp_all
    · simp only [Memory.write, ha, if_true, hb, if_false, and_true]
      rw [lookupCell_insertCell _ _ _ (by simp)]
      simp only [lookupCell_filter_ne]
      split <;> simp_all
  · simp [Memory.write, ha]

theorem mem_insertCell (c d : Host.Cell) (cs : List Host.Cell) : d ∈ insertCell c cs ↔ d = c ∨ d ∈ cs := by
  induction cs with
  | nil => simp [insertCell]
  | cons e es ih =>
    unfold insertCell
    split
    · simp
    · simp only [List.mem_cons, ih]; tauto

theorem pairwise_insertCell (c : Host.Cell) (cs : List Host.Cell) (h : ∀ d ∈ cs, d.1 ≠ c.1)
    (hs : cs.Pairwise (fun c c' => c.1 < c'.1)) : (insertCell c cs).Pairwise (fun c c' => c.1 < c'.1) := by
  induction cs with
  | nil => simp [insertCell]
  | cons d ds ih =>
    have hd := h d (by simp)
    rw [List.pairwise_cons] at hs
    unfold insertCell
    split
    · rename_i hlt
      refine List.pairwise_cons.2 ⟨fun e he => ?_, List.pairwise_cons.2 hs⟩
      rcases List.mem_cons.1 he with rfl | he
      · exact hlt
      · exact lt_trans hlt (hs.1 e he)
    · refine List.pairwise_cons.2 ⟨fun e he => ?_, ih (fun e he => h e (by simp [he])) hs.2⟩
      rcases (mem_insertCell _ _ _).1 he with rfl | he
      · omega
      · exact hs.1 e he

theorem Memory.wf_iff (m : Memory) : m.wf = true ↔
    m.cells.Pairwise (fun c c' => c.1 < c'.1) ∧
      ∀ c ∈ m.cells, c.1 < Config.memSize ∧ c.2 ≠ m.unlisted c.1 := by
  simp [Memory.wf]

/-- A write keeps the canonical form. -/
theorem Memory.wf_write (m : Memory) (a : Nat) (b : Byte) (h : m.wf = true) : (m.write a b).wf = true := by
  by_cases ha : a < Config.memSize
  · rw [Memory.wf_iff] at h ⊢
    have hs := h.1.filter (fun c => c.1 != a)
    have hm : ∀ c ∈ m.cells.filter (fun c => c.1 != a), c.1 < Config.memSize ∧ c.2 ≠ m.unlisted c.1 :=
      fun c hc => h.2 c (List.mem_filter.1 hc).1
    simp only [Memory.unlisted_write]
    by_cases hb : b = m.unlisted a
    · simp only [Memory.write, ha, if_true, if_pos hb]; exact ⟨hs, hm⟩
    · simp only [Memory.write, ha, if_true, if_neg hb]
      refine ⟨pairwise_insertCell _ _ (by simp) hs, fun c hc => ?_⟩
      rcases (mem_insertCell _ _ _).1 hc with rfl | hc
      · exact ⟨ha, hb⟩
      · exact hm c hc
  · simpa [Memory.write, ha] using h

@[simp] theorem Memory.writeList_font (m : Memory) (a : Nat) (bs : List Byte) :
    (m.writeList a bs).font = m.font := by
  induction bs generalizing m a with
  | nil => rfl
  | cons b bs ih => simp [Memory.writeList, ih]

theorem Memory.wf_writeList (m : Memory) (a : Nat) (bs : List Byte) (h : m.wf = true) :
    (m.writeList a bs).wf = true := by
  induction bs generalizing m a with
  | nil => exact h
  | cons b bs ih => exact ih _ _ (m.wf_write a b h)

/-- Reading after consecutive writes: byte k of the list at a + k, every other address as before. -/
theorem Memory.read_writeList (m : Memory) (a a' : Nat) (bs : List Byte) :
    (m.writeList a bs).read a' =
      if h : a ≤ a' ∧ a' - a < bs.length ∧ a' < Config.memSize then bs[a' - a] else m.read a' := by
  induction bs generalizing m a with
  | nil => simp [Memory.writeList]
  | cons b bs ih =>
    simp only [Memory.writeList, ih, Memory.read_write]
    by_cases h1 : a' = a
    · subst h1
      by_cases h2 : a' < Config.memSize <;> simp [h2]
    · by_cases h2 : a + 1 ≤ a' ∧ a' - (a + 1) < bs.length ∧ a' < Config.memSize
      · have h3 : a ≤ a' ∧ a' - a < (b :: bs).length ∧ a' < Config.memSize := by
          simp only [List.length_cons]; omega
        rw [dif_pos h2, dif_pos h3, List.getElem_cons]
        have : a' - a ≠ 0 := by omega
        simp [this, show a' - a - 1 = a' - (a + 1) by omega]
      · have h3 : ¬(a ≤ a' ∧ a' - a < (b :: bs).length ∧ a' < Config.memSize) := by
          simp only [List.length_cons]; omega
        rw [dif_neg h2, dif_neg h3]
        simp [h1]

/-- The memory of the state after reset lists nothing, so it is in canonical form. -/
theorem reset_memory_wf : State.reset.mem.wf = true := by decide

/-- The lowest failing address, as R117 names it. -/
theorem firstBadAddress_eq (base count : Nat) :
    firstBadAddress base count =
      if base + count ≤ Config.memSize ∨ count = 0 then none else some (max base Config.memSize) := by
  unfold firstBadAddress
  split
  · rename_i h
    rw [List.find?_eq_none]
    intro a ha
    obtain ⟨k, hk, rfl⟩ := List.mem_map.1 ha
    have := List.mem_range.1 hk
    simp only [decide_eq_true_eq]; omega
  · rename_i h
    rw [List.find?_eq_some_iff_append]
    refine ⟨by simp, (List.range (Config.memSize - base)).map (base + ·),
      (List.range (base + count - max base Config.memSize - 1)).map (max base Config.memSize + 1 + ·), ?_, ?_⟩
    · apply List.ext_getElem
      · simp; omega
      · intro n h1 h2
        simp only [List.length_map, List.length_range] at h1
        simp only [List.getElem_map, List.getElem_range, List.getElem_append, List.length_map,
          List.length_range]
        split
        · rfl
        · rw [List.getElem_cons]
          split
          · omega
          · simp; omega
    · intro a ha
      obtain ⟨k, hk, rfl⟩ := List.mem_map.1 ha
      have := List.mem_range.1 hk
      simp only [Bool.not_eq_true', decide_eq_false_iff_not]; omega

end Sys2Proof.Machine
end

