-- ==== Sys2Proof/Laws/Ops.lean ====
section
/-! SUPPORT. One law for each shared operation: all it can do, for later proofs to cite. -/

namespace Sys2Proof.Machine

/-! ### Registers and the stack -/

/-- Reading register r' of a register file after register r is written. -/
theorem getElem_set_fin (v : Vector Byte 16) (r r' : RegIdx) (b : Byte) :
    (v.set r b)[r'] = if r' = r then b else v[r'] := by
  simp only [Fin.getElem_fin, Vector.getElem_set]
  by_cases h : r = r'
  · simp [h]
  · simp [Fin.val_ne_of_ne h, Ne.symm h]

theorem State.reg_setV (s : State) (r r' : RegIdx) (b : Byte) :
    (s.setV r b).v[r'] = if r' = r then b else s.v[r'] := getElem_set_fin s.v r r' b

/-- The flag is written first, so the result survives in VF (R88). -/
theorem State.reg_setFlagThenResult (s : State) (x r : RegIdx) (f b : Byte) :
    (s.setFlagThenResult x f b).v[r] = if r = x then b else if r = 15 then f else s.v[r] := by
  rw [State.setFlagThenResult, State.reg_setV, State.reg_setV]

/-- All a push can do (R25). -/
theorem State.push_cases (s : State) (a : Word) :
    (s.sp = 16 ∧ s.push a = none) ∨
      ∃ h : s.sp.val < 16, s.push a = some { s with stack := s.stack.set s.sp.val a, sp := ⟨s.sp.val + 1, by omega⟩ } := by
  unfold State.push
  by_cases h : s.sp.val < 16
  · exact .inr ⟨h, by simp [h]⟩
  · exact .inl ⟨by ext; have := s.sp.isLt; simp; omega, by simp [h]⟩

/-- All a pop can do (R25). -/
theorem State.pop_cases (s : State) :
    (s.sp = 0 ∧ s.pop = none) ∨
      ∃ h : 0 < s.sp.val, s.pop = some (s.stack[s.sp.val - 1], { s with sp := ⟨s.sp.val - 1, by omega⟩ }) := by
  unfold State.pop
  by_cases h : 0 < s.sp.val
  · exact .inr ⟨h, by simp [h]⟩
  · exact .inl ⟨by ext; simp; omega, by simp [h]⟩

/-- All the range check can do (R48, R52, R117). -/
theorem whenInRange_cases (base count : Nat) (s k : State) :
    ((base + count ≤ Config.memSize ∨ count = 0) ∧ whenInRange base count s k = k) ∨
      (Config.memSize < base + count ∧ count ≠ 0 ∧
        whenInRange base count s k = raiseFault .dataRange (max base Config.memSize) s) := by
  unfold whenInRange
  rw [firstBadAddress_eq]
  by_cases h : base + count ≤ Config.memSize ∨ count = 0
  · exact .inl ⟨h, by rw [if_pos h]⟩
  · exact .inr ⟨by omega, by omega, by rw [if_neg h]⟩

/-- The fetch (R47). -/
theorem fetch_eq (s : State) : fetch s =
    if s.pc.toNat + 1 < Config.memSize then
      some (wordOfBytes (s.mem.read s.pc.toNat) (s.mem.read (s.pc.toNat + 1))) else none := rfl

/-- The registers after a load of consecutive registers (R115). -/
theorem writeRegs_getElem (v : Vector Byte 16) (r k : Nat) (bs : List Byte) (hk : k < 16) :
    (writeRegs v r bs)[k] = if h : r ≤ k ∧ k - r < bs.length then bs[k - r] else v[k] := by
  induction bs generalizing v r with
  | nil => simp [writeRegs]
  | cons b bs ih =>
    simp only [writeRegs, ih]
    by_cases h1 : k = r
    · subst h1; simp [hk]
    · by_cases h2 : r + 1 ≤ k ∧ k - (r + 1) < bs.length
      · have h3 : r ≤ k ∧ k - r < (b :: bs).length := by simp only [List.length_cons]; omega
        rw [dif_pos h2, dif_pos h3, List.getElem_cons]
        have : k - r ≠ 0 := by omega
        simp [this, show k - r - 1 = k - (r + 1) by omega]
      · have h3 : ¬(r ≤ k ∧ k - r < (b :: bs).length) := by simp only [List.length_cons]; omega
        rw [dif_neg h2, dif_neg h3]
        split
        · rw [Vector.getElem_set]; simp [Ne.symm h1]
        · rfl

/-- The key that a wait takes: the lowest pressed one (R105). -/
theorem lowestKey_eq_some (key : Vector Bool 16) (k : RegIdx) :
    lowestKey key = some k ↔ key[k] = true ∧ ∀ j : RegIdx, j < k → key[j] = false := by
  unfold lowestKey
  rw [List.find?_eq_some_iff_getElem]
  constructor
  · rintro ⟨hk, i, hi, he, hlt⟩
    rw [List.getElem_finRange] at he
    subst he
    refine ⟨hk, fun j hj => ?_⟩
    have := hlt j.val (by simpa [Fin.lt_def] using hj)
    simpa using this
  · rintro ⟨hk, hlt⟩
    refine ⟨hk, k.val, by simp, by simp, fun j hj => ?_⟩
    simpa using hlt ⟨j, by omega⟩ (by simpa [Fin.lt_def] using hj)

theorem lowestKey_eq_none (key : Vector Bool 16) : lowestKey key = none ↔ ∀ k : RegIdx, key[k] = false := by
  simp [lowestKey]

/-! ### The timers -/

theorem countDown_toNat (b : Byte) : (countDown b).toNat = b.toNat - 1 := by
  unfold countDown
  split
  · rw [BitVec.toNat_sub_of_le (by rw [BitVec.le_def]; simp; omega)]; simp
  · omega

/-! ### The screen -/

theorem pixelAt_blankScreen (x y : Nat) : pixelAt blankScreen x y = false := by
  simp [pixelAt, blankScreen]

theorem pixelAt_mod (fb : Framebuffer) (x y : Nat) : pixelAt fb (x % 64) (y % 32) = pixelAt fb x y := by
  simp [pixelAt]

/-- Two screens with the same pixels are the same. -/
theorem framebuffer_ext (fb fb' : Framebuffer) (h : ∀ x y, pixelAt fb x y = pixelAt fb' x y) : fb = fb' := by
  apply Vector.ext
  intro x hx
  apply Vector.ext
  intro y hy
  simpa [pixelAt, Nat.mod_eq_of_lt hx, Nat.mod_eq_of_lt hy] using h x y

theorem pixelAt_flipPixel (fb : Framebuffer) (x y x' y' : Nat) :
    pixelAt (flipPixel fb x y) x' y' =
      if x' % 64 = x % 64 ∧ y' % 32 = y % 32 then !pixelAt fb x y else pixelAt fb x' y' := by
  simp only [flipPixel, pixelAt, Vector.getElem_set]
  by_cases hx : x % 64 = x' % 64
  · by_cases hy : y % 32 = y' % 32
    · simp [hx, hy]
    · simp [hx, hy, Ne.symm hy]
  · simp [hx, Ne.symm hx]

/-- One sprite's flips from any start: each listed pixel changes, no other does. -/
theorem flipPixels_foldl (ps : List (Nat × Nat)) (fb : Framebuffer) (hit : Bool)
    (hr : ∀ p ∈ ps, p.1 < 64 ∧ p.2 < 32) (hn : ps.Nodup) :
    (∀ x y, pixelAt (ps.foldl (fun acc p => (flipPixel acc.1 p.1 p.2, acc.2 || pixelAt acc.1 p.1 p.2))
        (fb, hit)).1 x y = (pixelAt fb x y ^^ decide ((x % 64, y % 32) ∈ ps))) ∧
      (ps.foldl (fun acc p => (flipPixel acc.1 p.1 p.2, acc.2 || pixelAt acc.1 p.1 p.2)) (fb, hit)).2 =
        (hit || ps.any (fun p => pixelAt fb p.1 p.2)) := by
  induction ps generalizing fb hit with
  | nil => simp
  | cons p ps ih =>
    rw [List.nodup_cons] at hn
    have hp := hr p (by simp)
    obtain ⟨ih1, ih2⟩ := ih (flipPixel fb p.1 p.2) (hit || pixelAt fb p.1 p.2)
      (fun q hq => hr q (by simp [hq])) hn.2
    simp only [List.foldl_cons]
    refine ⟨fun x y => ?_, ?_⟩
    · rw [ih1, pixelAt_flipPixel]
      rw [Nat.mod_eq_of_lt hp.1, Nat.mod_eq_of_lt hp.2]
      by_cases h : x % 64 = p.1 ∧ y % 32 = p.2
      · have hnot : (x % 64, y % 32) ∉ ps := by rw [h.1, h.2]; exact hn.1
        have : pixelAt fb x y = pixelAt fb p.1 p.2 := by rw [← pixelAt_mod, h.1, h.2]
        rw [if_pos h]
        simp [h.1, h.2, this, hn.1]
      · have hne : (x % 64, y % 32) ≠ p := fun e => h (by rw [← e]; exact ⟨rfl, rfl⟩)
        rw [if_neg h]
        simp [hne]
    · rw [ih2, List.any_cons, Bool.or_assoc]
      congr 2
      rw [Bool.eq_iff_iff, List.any_eq_true, List.any_eq_true]
      refine exists_congr fun q => and_congr_right fun hq => ?_
      have hqr := hr q (by simp [hq])
      have : ¬(q.1 % 64 = p.1 % 64 ∧ q.2 % 32 = p.2 % 32) := by
        rintro ⟨h1, h2⟩
        rw [Nat.mod_eq_of_lt hqr.1, Nat.mod_eq_of_lt hp.1] at h1
        rw [Nat.mod_eq_of_lt hqr.2, Nat.mod_eq_of_lt hp.2] at h2
        exact hn.1 (by rwa [show p = q from Prod.ext h1.symm h2.symm])
      rw [pixelAt_flipPixel, if_neg this]

/-- Each listed pixel changes and no other (R102). -/
theorem pixelAt_flipPixels (fb : Framebuffer) (ps : List (Nat × Nat)) (x y : Nat)
    (hr : ∀ p ∈ ps, p.1 < 64 ∧ p.2 < 32) (hn : ps.Nodup) :
    pixelAt (flipPixels fb ps).1 x y = (pixelAt fb x y ^^ decide ((x % 64, y % 32) ∈ ps)) :=
  (flipPixels_foldl ps fb false hr hn).1 x y

/-- The collision: some listed pixel was set (R102). -/
theorem flipPixels_collision (fb : Framebuffer) (ps : List (Nat × Nat))
    (hr : ∀ p ∈ ps, p.1 < 64 ∧ p.2 < 32) (hn : ps.Nodup) :
    (flipPixels fb ps).2 = ps.any (fun p => pixelAt fb p.1 p.2) :=
  (flipPixels_foldl ps fb false hr hn).2.trans (Bool.false_or _)

theorem mem_spritePixels (rows : Nat → Byte) (x0 y0 n : Nat) (p : Nat × Nat) :
    p ∈ spritePixels rows x0 y0 n ↔
      ∃ r < n, ∃ c < 8, (rows r).getLsbD (7 - c) = true ∧ p = ((x0 + c) % 64, (y0 + r) % 32) := by
  simp only [spritePixels, List.mem_flatMap, List.mem_range, List.mem_filterMap,
    Option.ite_none_right_eq_some, Option.some.injEq]
  constructor
  · rintro ⟨r, hr, c, hc, h, rfl⟩; exact ⟨r, hr, c, hc, h, rfl⟩
  · rintro ⟨r, hr, c, hc, h, rfl⟩; exact ⟨r, hr, c, hc, h, rfl⟩

theorem spritePixels_inScreen (rows : Nat → Byte) (x0 y0 n : Nat) :
    ∀ p ∈ spritePixels rows x0 y0 n, p.1 < 64 ∧ p.2 < 32 := by
  intro p hp
  obtain ⟨r, _, c, _, _, rfl⟩ := (mem_spritePixels ..).1 hp
  exact ⟨Nat.mod_lt _ (by omega), Nat.mod_lt _ (by omega)⟩

/-- A sprite cannot overlap itself (R102). -/
theorem spritePixels_nodup (rows : Nat → Byte) (x0 y0 n : Nat) (hn : n ≤ 32) :
    (spritePixels rows x0 y0 n).Nodup := by
  rw [spritePixels, List.nodup_flatMap]
  refine ⟨fun r _ => ?_, ?_⟩
  · refine List.pairwise_filterMap.2 (List.pairwise_lt_range.imp_of_mem ?_)
    intro c c' hc hc' hlt p hp q hq
    rw [List.mem_range] at hc hc'
    simp only [Option.ite_none_right_eq_some, Option.some.injEq] at hp hq
    rw [← hp.2, ← hq.2, ne_eq, Prod.mk.injEq]
    omega
  · refine List.pairwise_lt_range.imp_of_mem ?_
    intro r r' hr hr' hlt p hp hq
    rw [List.mem_range] at hr hr'
    simp only [List.mem_filterMap, Option.ite_none_right_eq_some, Option.some.injEq] at hp hq
    obtain ⟨_, _, _, rfl⟩ := hp
    obtain ⟨_, _, _, h⟩ := hq
    rw [Prod.mk.injEq] at h
    omega

/-! ### What each update leaves alone -/

theorem OnlyWrites.refl (s : State) : OnlyWrites s s [] := fun p _ => by cases p <;> rfl

theorem OnlyWrites.mono {s t : State} {ps qs : List Part} (h : OnlyWrites s t ps) (hs : ∀ p ∈ ps, p ∈ qs) :
    OnlyWrites s t qs := fun p hp => h p fun hp' => hp (hs p hp')

theorem Part.same_trans {s t u : State} (p : Part) (h : p.same s t) (h' : p.same t u) : p.same s u := by
  cases p <;> exact Eq.trans h' h

/-- One update after another writes the parts of both. -/
theorem OnlyWrites.trans {s t u : State} {ps qs : List Part} (h : OnlyWrites s t ps)
    (h' : OnlyWrites t u qs) : OnlyWrites s u (ps ++ qs) := fun p hp =>
  p.same_trans (h p fun hm => hp (List.mem_append_left _ hm)) (h' p fun hm => hp (List.mem_append_right _ hm))

theorem onlyWrites_setV (s : State) (r : RegIdx) (b : Byte) : OnlyWrites s (s.setV r b) [.reg r] := by
  intro p hp
  cases p with
  | reg r' =>
    have : r' ≠ r := by simpa using hp
    simp only [Part.same, State.reg_setV, if_neg this]
  | _ => rfl

theorem onlyWrites_setFlagThenResult (s : State) (x : RegIdx) (f b : Byte) :
    OnlyWrites s (s.setFlagThenResult x f b) [.reg 15, .reg x] :=
  (onlyWrites_setV s 15 f).trans (onlyWrites_setV _ x b)

theorem onlyWrites_setPc (s : State) (a : Word) : OnlyWrites s (s.setPc a) [.pc] := by
  intro p hp; cases p <;> first | rfl | simp at hp

theorem onlyWrites_advance (s : State) : OnlyWrites s s.advance [.pc] := onlyWrites_setPc s _

theorem onlyWrites_skipIf (s : State) (c : Bool) : OnlyWrites s (s.skipIf c) [.pc] := onlyWrites_setPc s _

theorem onlyWrites_setI (s : State) (a : Word) : OnlyWrites s (s.setI a) [.index] := by
  intro p hp; cases p <;> first | rfl | simp at hp

theorem onlyWrites_setDt (s : State) (b : Byte) : OnlyWrites s (s.setDt b) [.dt] := by
  intro p hp; cases p <;> first | rfl | simp at hp

theorem onlyWrites_setSt (s : State) (b : Byte) : OnlyWrites s (s.setSt b) [.st] := by
  intro p hp; cases p <;> first | rfl | simp at hp

theorem onlyWrites_setScreen (s : State) (fb : Framebuffer) :
    OnlyWrites s (s.setScreen fb) [.screen, .drawFlag] := by
  intro p hp; cases p <;> first | rfl | simp at hp

theorem onlyWrites_raiseFault (c : FaultCause) (n : Nat) (s : State) :
    OnlyWrites s (raiseFault c n s) [.halted, .faultCode, .lastDiag] := by
  intro p hp; cases p <;> first | rfl | simp at hp

theorem onlyWrites_timerTick (due : Bool) (s : State) : OnlyWrites s (timerTick due s) [.dt, .st] := by
  intro p hp; cases p <;> first | rfl | simp at hp

/-- A store of consecutive bytes writes those bytes alone. -/
theorem onlyWrites_writeList (s : State) (a : Nat) (bs : List Byte) :
    OnlyWrites s (s.setMem (s.mem.writeList a bs)) (bytesFrom a bs.length) := by
  intro p hp
  cases p with
  | byte a' =>
    simp only [Part.same, State.setMem_mem, Memory.read_writeList]
    rw [dif_neg]
    rintro ⟨h1, h2, -⟩
    exact hp (List.mem_map.2 ⟨a' - a, List.mem_range.2 h2, by rw [Nat.add_sub_cancel' h1]⟩)
  | font => simp [Part.same]
  | _ => rfl

theorem takesFault_raiseFault (c : FaultCause) (n : Nat) (s : State) :
    TakesFault c.code c n s (raiseFault c n s) := ⟨rfl, rfl, rfl, onlyWrites_raiseFault c n s⟩

end Sys2Proof.Machine
end

