-- ==== Sys2Proof/Laws/Step.lean ====
section
/-! SUPPORT. All that a step can do: which transaction it serves, and the cases of the Step transaction. -/

namespace Sys2Proof.Machine

/-- Both forms of a Step are served alike. -/
theorem StepIssued.step_eq {s s0 : State} {tickDue : Bool} {rnd : Byte} (h : StepIssued s tickDue rnd s0) :
    step s = serveStep tickDue rnd s0 := by
  rcases h with ⟨rest, h, rfl⟩ | ⟨h, rfl, rfl, rfl⟩ <;> simp [step, serveNext, h, serve, freeStep]

/-- Taking a Step off touches the host's queue or counter alone. -/
theorem StepIssued.onlyWrites {s s0 : State} {tickDue : Bool} {rnd : Byte} (h : StepIssued s tickDue rnd s0) :
    OnlyWrites s s0 [.stepNo, .pending] := by
  rcases h with ⟨rest, h, rfl⟩ | ⟨h, rfl, rfl, rfl⟩ <;> intro p hp <;> cases p <;> first | rfl | simp at hp

theorem StepIssued.fields {s s0 : State} {tickDue : Bool} {rnd : Byte} (h : StepIssued s tickDue rnd s0) :
    s0.halted = s.halted ∧ s0.pc = s.pc ∧ s0.mem = s.mem ∧ fetch s0 = fetch s := by
  rcases h with ⟨rest, h, rfl⟩ | ⟨h, rfl, rfl, rfl⟩ <;> exact ⟨rfl, rfl, rfl, rfl⟩

/-- A step serves a Step, or the oldest waiting transaction that is none. -/
theorem step_cases (s : State) :
    (∃ tickDue rnd s0, StepIssued s tickDue rnd s0) ∨
      ∃ t rest, s.pending = t :: rest ∧ (∀ tickDue rnd, t ≠ .step tickDue rnd) ∧
        step s = serve t { s with pending := rest } := by
  rcases hp : s.pending with _ | ⟨t, rest⟩
  · exact .inl ⟨_, _, _, .inr ⟨hp, rfl, rfl, rfl⟩⟩
  · by_cases h : ∃ tickDue rnd, t = .step tickDue rnd
    · obtain ⟨tickDue, rnd, rfl⟩ := h
      exact .inl ⟨tickDue, rnd, _, .inl ⟨rest, hp, rfl⟩⟩
    · exact .inr ⟨t, rest, rfl, fun td r e => h ⟨td, r, e⟩, by simp [step, serveNext, hp]⟩

theorem serveStep_of_halted {s : State} (tickDue : Bool) (rnd : Byte) (h : s.halted = true) :
    serveStep tickDue rnd s = .next { s with lastDiag := .halted, reply := .stepped } := by
  simp [serveStep, h]

theorem serveStep_of_fetchRange {s : State} (tickDue : Bool) (rnd : Byte) (h : s.halted = false)
    (hf : fetch s = none) :
    serveStep tickDue rnd s = .next (raiseFault .fetchRange s.pc.toNat (begun s rnd)) := by
  simp [serveStep, h, hf]

theorem serveStep_of_unknown {s : State} {w : Word} {e : DecodeError} (tickDue : Bool) (rnd : Byte)
    (h : s.halted = false) (hf : fetch s = some w) (hd : decodeWord w = .error e) :
    serveStep tickDue rnd s =
      .next (timerTick tickDue { begun s rnd with lastDiag := .unknownOpcode w }) := by
  simp [serveStep, h, hf, runWord, hd]

theorem serveStep_of_exec {s t : State} {w : Word} {i : Instr} (tickDue : Bool) (rnd : Byte)
    (h : s.halted = false) (hf : fetch s = some w) (hd : decodeWord w = .ok i)
    (he : exec i (begun s rnd) = .next t) :
    serveStep tickDue rnd s = .next (timerTick (tickDue && !t.halted) t) := by
  simp [serveStep, h, hf, runWord, hd, he]

/-- All the Step transaction can answer as a next state (R75). -/
theorem serveStep_cases {s u : State} {tickDue : Bool} {rnd : Byte} (hs : serveStep tickDue rnd s = .next u) :
    (s.halted = true ∧ u = { s with lastDiag := .halted, reply := .stepped }) ∨
      (s.halted = false ∧ fetch s = none ∧ u = raiseFault .fetchRange s.pc.toNat (begun s rnd)) ∨
      (∃ w e, s.halted = false ∧ fetch s = some w ∧ decodeWord w = .error e ∧
        u = timerTick tickDue { begun s rnd with lastDiag := .unknownOpcode w }) ∨
      ∃ w i t, s.halted = false ∧ fetch s = some w ∧ decodeWord w = .ok i ∧
        exec i (begun s rnd) = .next t ∧ u = timerTick (tickDue && !t.halted) t := by
  cases h : s.halted with
  | true => exact .inl ⟨rfl, by simpa [serveStep, h] using hs.symm⟩
  | false =>
    cases hf : fetch s with
    | none => exact .inr (.inl ⟨rfl, rfl, by simpa [serveStep, h, hf] using hs.symm⟩)
    | some w =>
      cases hd : decodeWord w with
      | error e => exact .inr (.inr (.inl ⟨w, e, rfl, rfl, hd, by simpa [serveStep, h, hf, runWord, hd] using hs.symm⟩))
      | ok i =>
        cases he : exec i (begun s rnd) with
        | next t => exact .inr (.inr (.inr ⟨w, i, t, rfl, rfl, hd, he, by simpa [serveStep, h, hf, runWord, hd, he] using hs.symm⟩))
        | fault r => cases r
        | refused r => simp [serveStep, h, hf, runWord, hd, he] at hs

/-- A run goes on from the state its first step answers. -/
theorem run_succ {s t : State} (n : Nat) (h : step s = .next t) :
    Sys2Proof.core.run (n + 1) s = Sys2Proof.core.run n t := by
  have h' : Sys2Proof.core.step s = .next t := h
  simp only [Host.Core.run, h']

end Sys2Proof.Machine
end

