-- ==== Sys2Proof/Laws/Exec.lean ====
section
/-! SUPPORT. All that an instruction can do to the state: which parts it may write, and that either it raises one
fault and writes nothing else, or leaves halted, fault_code and last_diag alone. -/

namespace Sys2Proof.Machine

/-- What a fault writes. -/
def faultParts : List Part := [.halted, .faultCode, .lastDiag]

/-- The parts an instruction may write, its own effect's and a fault's. -/
def mayWrite (s : State) : Instr → List Part
  | .cls => [.screen, .drawFlag, .pc]
  | .ret => [.sp, .pc] ++ faultParts
  | .jp _ => [.pc]
  | .call _ => .stack (Fin.ofNat 16 s.sp.val) :: [.sp, .pc] ++ faultParts
  | .seImm _ _ => [.pc]
  | .sneImm _ _ => [.pc]
  | .seReg _ _ => [.pc]
  | .sneReg _ _ => [.pc]
  | .ldImm x _ => [.reg x, .pc]
  | .addImm x _ => [.reg x, .pc]
  | .ldReg x _ => [.reg x, .pc]
  | .orReg x _ => [.reg x, .pc]
  | .andReg x _ => [.reg x, .pc]
  | .xorReg x _ => [.reg x, .pc]
  | .addReg x _ => [.reg 15, .reg x, .pc]
  | .sub x _ => [.reg 15, .reg x, .pc]
  | .shr x _ => [.reg 15, .reg x, .pc]
  | .subn x _ => [.reg 15, .reg x, .pc]
  | .shl x _ => [.reg 15, .reg x, .pc]
  | .ldI _ => [.index, .pc]
  | .jpV0 _ => [.pc]
  | .rnd x _ => [.reg x, .pc]
  | .drw _ _ _ => [.screen, .drawFlag, .reg 15, .pc] ++ faultParts
  | .skp _ => .pc :: faultParts
  | .sknp _ => .pc :: faultParts
  | .ldVxDt x => [.reg x, .pc]
  | .ldK x => [.reg x, .pc]
  | .ldDtVx _ => [.dt, .pc]
  | .ldStVx _ => [.st, .pc]
  | .addI _ => (if s.indexOvf then [.reg 15] else []) ++ [.index, .pc]
  | .ldF _ => [.index, .pc]
  | .ldB _ => bytesFrom (s.indexAddr 0) 3 ++ .pc :: faultParts
  | .ldMemVx x => bytesFrom (s.indexAddr 0) (x.val + 1) ++ [.index, .pc] ++ faultParts
  | .ldVxMem x => regsThrough x ++ [.index, .pc] ++ faultParts

theorem onlyWrites_push {s s' : State} {a : Word} (h : s.push a = some s') :
    OnlyWrites s s' [.stack (Fin.ofNat 16 s.sp.val), .sp] := by
  rcases s.push_cases a with ⟨-, h'⟩ | ⟨hlt, h'⟩
  · simp [h'] at h
  · rw [h', Option.some.injEq] at h
    subst h
    intro p hp
    cases p with
    | stack k =>
      have : k ≠ Fin.ofNat 16 s.sp.val := by intro e; simp [e] at hp
      have hne : s.sp.val ≠ k.val := by
        intro e; apply this; ext; simp only [Fin.val_ofNat]; omega
      simp [Part.same, hne]
    | sp => simp at hp
    | _ => rfl

theorem onlyWrites_pop {s s' : State} {a : Word} (h : s.pop = some (a, s')) : OnlyWrites s s' [.sp] := by
  rcases s.pop_cases with ⟨-, h'⟩ | ⟨hlt, h'⟩
  · simp [h'] at h
  · rw [h', Option.some.injEq, Prod.mk.injEq] at h
    rw [← h.2]
    intro p hp; cases p <;> first | rfl | simp at hp

theorem onlyWrites_whenInRange {s k : State} {ps : List Part} (base count : Nat) (h : OnlyWrites s k ps) :
    OnlyWrites s (whenInRange base count s k) (ps ++ faultParts) := by
  rcases whenInRange_cases base count s k with ⟨-, e⟩ | ⟨-, -, e⟩ <;> rw [e]
  · exact h.mono (by simp +contextual)
  · exact (onlyWrites_raiseFault _ _ s).mono (by simp +contextual [faultParts])

/-- Writing a register's own value writes nothing. -/
theorem onlyWrites_setV_self (s : State) (r : RegIdx) : OnlyWrites s (s.setV r (s.reg r)) [] := by
  intro p hp
  cases p with
  | reg r' =>
    simp only [Part.same, State.reg_setV, State.reg]
    split
    · rename_i h; rw [h]
    · rfl
  | _ => rfl

theorem onlyWrites_loadRegs (s : State) (x : RegIdx) (bs : List Byte) (h : bs.length = x.val + 1) :
    OnlyWrites s { s with v := writeRegs s.v 0 bs } (regsThrough x) := by
  intro p hp
  cases p with
  | reg r =>
    have : x < r := by
      by_contra hle
      exact hp (by simpa [regsThrough] using not_lt.1 hle)
    simp only [Part.same, Fin.getElem_fin, writeRegs_getElem]
    rw [dif_neg (by rw [h]; rw [Fin.lt_def] at this; omega)]
  | _ => rfl

/-- An instruction writes only what it may. -/
theorem exec_onlyWrites {i : Instr} {s t : State} (h : exec i s = .next t) : OnlyWrites s t (mayWrite s i) := by
  have hx : ∀ {u : State} {ps}, OnlyWrites s u ps → OnlyWrites s u.advance (ps ++ [.pc]) :=
    fun hu => hu.trans (onlyWrites_advance _)
  cases i <;> simp only [exec] at h
  case ret =>
    unfold execRet at h
    split at h <;> cases h
    · rename_i h; exact ((onlyWrites_pop h).trans (onlyWrites_setPc _ _)).mono (by simp +contextual [mayWrite])
    · exact (onlyWrites_raiseFault _ _ s).mono (by simp +contextual [mayWrite, faultParts])
  case call nnn =>
    unfold execCall at h
    split at h <;> cases h
    · rename_i h; exact ((onlyWrites_push h).trans (onlyWrites_setPc _ _)).mono (by simp +contextual [mayWrite])
    · exact (onlyWrites_raiseFault _ _ s).mono (by simp +contextual [mayWrite, faultParts])
  case skp x =>
    unfold execSkp at h
    split at h <;> cases h
    · exact (onlyWrites_skipIf _ _).mono (by simp +contextual [mayWrite])
    · exact (onlyWrites_raiseFault _ _ s).mono (by simp +contextual [mayWrite, faultParts])
  case sknp x =>
    unfold execSknp at h
    split at h <;> cases h
    · exact (onlyWrites_skipIf _ _).mono (by simp +contextual [mayWrite])
    · exact (onlyWrites_raiseFault _ _ s).mono (by simp +contextual [mayWrite, faultParts])
  case ldK x =>
    unfold execLdK at h
    split at h <;> cases h
    · exact hx (onlyWrites_setV _ _ _)
    · exact (OnlyWrites.refl s).mono (by simp)
  case drw x y n =>
    cases h
    exact onlyWrites_whenInRange _ _ (hx ((onlyWrites_setScreen _ _).trans (onlyWrites_setV _ _ _)))
  case ldB x =>
    cases h
    exact (onlyWrites_whenInRange _ _ (hx (onlyWrites_writeList _ _ _))).mono (by simp [mayWrite, bcdDigits])
  case ldMemVx x =>
    cases h
    exact (onlyWrites_whenInRange _ _ (hx ((onlyWrites_writeList _ _ _).trans (onlyWrites_setI _ _)))).mono
      (by simp [mayWrite, State.regsUpTo])
  case ldVxMem x =>
    cases h
    exact (onlyWrites_whenInRange _ _ (hx ((onlyWrites_loadRegs s x _ (by simp [State.bytesAtIndex])).trans
      (onlyWrites_setI _ _)))).mono (by simp [mayWrite])
  case addI x =>
    cases h
    refine (hx (OnlyWrites.trans (ps := if s.indexOvf then [.reg 15] else []) ?_ (onlyWrites_setI _ _))).mono
      (by simp [mayWrite])
    split
    · exact onlyWrites_setV _ _ _
    · exact onlyWrites_setV_self s 15
  all_goals cases h
  all_goals first
    | exact onlyWrites_setPc _ _
    | exact onlyWrites_skipIf _ _
    | exact hx (onlyWrites_setV _ _ _)
    | exact hx (onlyWrites_setFlagThenResult _ _ _ _)
    | exact hx (onlyWrites_setI _ _)
    | exact hx (onlyWrites_setDt _ _)
    | exact hx (onlyWrites_setSt _ _)
    | exact hx (onlyWrites_setScreen _ _)

/-- An instruction either raises one fault, and that is all it does, or it leaves halted, fault_code and last_diag
alone. -/
theorem exec_fault_cases {i : Instr} {s t : State} (h : exec i s = .next t) :
    (∃ c n, t = raiseFault c n s) ∨
      (t.halted = s.halted ∧ t.faultCode = s.faultCode ∧ t.lastDiag = s.lastDiag) := by
  have hw : ∀ {base count : Nat} {k : State}, t = whenInRange base count s k → k.halted = s.halted →
      k.faultCode = s.faultCode → k.lastDiag = s.lastDiag → (∃ c n, t = raiseFault c n s) ∨
      (t.halted = s.halted ∧ t.faultCode = s.faultCode ∧ t.lastDiag = s.lastDiag) := by
    intro base count k e h1 h2 h3
    rcases whenInRange_cases base count s k with ⟨-, e'⟩ | ⟨-, -, e'⟩
    · exact .inr (by rw [e, e']; exact ⟨h1, h2, h3⟩)
    · exact .inl ⟨_, _, e.trans e'⟩
  have hm := exec_onlyWrites h
  cases i
  case drw => cases h; exact hw rfl rfl rfl rfl
  case ldB => cases h; exact hw rfl rfl rfl rfl
  case ldMemVx => cases h; exact hw rfl rfl rfl rfl
  case ldVxMem => cases h; exact hw rfl rfl rfl rfl
  case ret =>
    simp only [exec, execRet] at h
    split at h <;> cases h
    · rename_i h; exact .inr ⟨onlyWrites_pop h .halted (by simp), onlyWrites_pop h .faultCode (by simp),
        onlyWrites_pop h .lastDiag (by simp)⟩
    · exact .inl ⟨_, _, rfl⟩
  case call =>
    simp only [exec, execCall] at h
    split at h <;> cases h
    · rename_i h; exact .inr ⟨onlyWrites_push h .halted (by simp), onlyWrites_push h .faultCode (by simp),
        onlyWrites_push h .lastDiag (by simp)⟩
    · exact .inl ⟨_, _, rfl⟩
  case skp =>
    simp only [exec, execSkp] at h
    split at h <;> cases h
    · exact .inr ⟨rfl, rfl, rfl⟩
    · exact .inl ⟨_, _, rfl⟩
  case sknp =>
    simp only [exec, execSknp] at h
    split at h <;> cases h
    · exact .inr ⟨rfl, rfl, rfl⟩
    · exact .inl ⟨_, _, rfl⟩
  all_goals exact .inr ⟨hm .halted (by simp [mayWrite]), hm .faultCode (by simp [mayWrite]), hm .lastDiag (by simp [mayWrite])⟩

/-- An instruction keeps memory in its canonical form. -/
theorem exec_keeps_memory_wf {i : Instr} {s t : State} (h : exec i s = .next t) (hw : s.mem.wf = true) :
    t.mem.wf = true := by
  have hr : ∀ {base count : Nat} {k : State}, t = whenInRange base count s k → k.mem.wf = true →
      t.mem.wf = true := by
    intro base count k e hk
    rcases whenInRange_cases base count s k with ⟨-, e'⟩ | ⟨-, -, e'⟩ <;> rw [e, e']
    · exact hk
    · exact hw
  cases i
  case drw => cases h; exact hr rfl hw
  case ldB => cases h; exact hr rfl (Memory.wf_writeList _ _ _ hw)
  case ldMemVx => cases h; exact hr rfl (Memory.wf_writeList _ _ _ hw)
  case ldVxMem => cases h; exact hr rfl hw
  case call =>
    simp only [exec, execCall] at h
    rcases s.push_cases s.pc with ⟨-, e⟩ | ⟨_, e⟩ <;> rw [e] at h <;> cases h <;> exact hw
  case ret =>
    simp only [exec, execRet] at h
    rcases s.pop_cases with ⟨-, e⟩ | ⟨_, e⟩ <;> rw [e] at h <;> cases h <;> exact hw
  case skp => simp only [exec, execSkp] at h; split at h <;> cases h <;> exact hw
  case sknp => simp only [exec, execSknp] at h; split at h <;> cases h <;> exact hw
  case ldK => simp only [exec, execLdK] at h; split at h <;> cases h <;> exact hw
  all_goals (cases h; exact hw)

end Sys2Proof.Machine
end

