-- ==== Sys2Proof/Laws/PerInstr.lean ====
section
/-! SUPPORT. Per instruction: the encoder's word belongs to a row of the opcode map (spec/30_encoding.md R68), and
the row builds the instruction from it (R74). -/

-- One theorem at a time: elaborating these short proofs side by side only costs threads.
set_option Elab.async false

namespace Sys2Proof.Laws.OpcodeRow

/-- Row k of the opcode map takes the instruction's word and builds the instruction from it. -/
def RowBuilds (r : OpcodeRow) (i : Instr) : Prop :=
  encode i &&& r.mask = r.pattern ∧ r.build (encode i) = i

/-- A well-formed instruction's word belongs to a row that builds the instruction from it. -/
def Statement (i : Instr) : Prop := i.wf = true → ∃ r ∈ opcodeMap, RowBuilds r i

theorem of_row {i : Instr} (k : Nat) (h : k < opcodeMap.length) (hr : RowBuilds opcodeMap[k] i) :
    Statement i := fun _ => ⟨opcodeMap[k], List.getElem_mem h, hr⟩

theorem cls : Statement .cls := of_row 0 (by decide) ⟨by decide, rfl⟩

theorem ret : Statement .ret := of_row 1 (by decide) ⟨by decide, rfl⟩

theorem jp (nnn : Word) : Statement (.jp nnn) := fun h =>
  ⟨opcodeMap[2], List.getElem_mem (by decide), (and_maskOp _).trans (by simp [encode]; rfl),
    congrArg Instr.jp (nnnField_packNNN _ _ h)⟩

theorem call (nnn : Word) : Statement (.call nnn) := fun h =>
  ⟨opcodeMap[3], List.getElem_mem (by decide), (and_maskOp _).trans (by simp [encode]; rfl),
    congrArg Instr.call (nnnField_packNNN _ _ h)⟩

theorem seImm (x : RegIdx) (nn : Byte) : Statement (.seImm x nn) := of_row 4 (by decide)
  ⟨(and_maskOp _).trans (by simp [encode]; rfl),
    congrArg₂ Instr.seImm (xField_packXNN ..) (nnField_packXNN ..)⟩

theorem sneImm (x : RegIdx) (nn : Byte) : Statement (.sneImm x nn) := of_row 5 (by decide)
  ⟨(and_maskOp _).trans (by simp [encode]; rfl),
    congrArg₂ Instr.sneImm (xField_packXNN ..) (nnField_packXNN ..)⟩

theorem seReg (x y : RegIdx) : Statement (.seReg x y) := of_row 6 (by decide)
  ⟨(and_maskOp _).trans (by simp [encode]; rfl),
    congrArg₂ Instr.seReg (xField_packXYN ..) (yField_packXYN ..)⟩

theorem ldImm (x : RegIdx) (nn : Byte) : Statement (.ldImm x nn) := of_row 7 (by decide)
  ⟨(and_maskOp _).trans (by simp [encode]; rfl),
    congrArg₂ Instr.ldImm (xField_packXNN ..) (nnField_packXNN ..)⟩

theorem addImm (x : RegIdx) (nn : Byte) : Statement (.addImm x nn) := of_row 8 (by decide)
  ⟨(and_maskOp _).trans (by simp [encode]; rfl),
    congrArg₂ Instr.addImm (xField_packXNN ..) (nnField_packXNN ..)⟩

theorem ldReg (x y : RegIdx) : Statement (.ldReg x y) := of_row 9 (by decide)
  ⟨(and_maskOpN _).trans (by simp [encode]; rfl),
    congrArg₂ Instr.ldReg (xField_packXYN ..) (yField_packXYN ..)⟩

theorem orReg (x y : RegIdx) : Statement (.orReg x y) := of_row 10 (by decide)
  ⟨(and_maskOpN _).trans (by simp [encode]; rfl),
    congrArg₂ Instr.orReg (xField_packXYN ..) (yField_packXYN ..)⟩

theorem andReg (x y : RegIdx) : Statement (.andReg x y) := of_row 11 (by decide)
  ⟨(and_maskOpN _).trans (by simp [encode]; rfl),
    congrArg₂ Instr.andReg (xField_packXYN ..) (yField_packXYN ..)⟩

theorem xorReg (x y : RegIdx) : Statement (.xorReg x y) := of_row 12 (by decide)
  ⟨(and_maskOpN _).trans (by simp [encode]; rfl),
    congrArg₂ Instr.xorReg (xField_packXYN ..) (yField_packXYN ..)⟩

theorem addReg (x y : RegIdx) : Statement (.addReg x y) := of_row 13 (by decide)
  ⟨(and_maskOpN _).trans (by simp [encode]; rfl),
    congrArg₂ Instr.addReg (xField_packXYN ..) (yField_packXYN ..)⟩

theorem sub (x y : RegIdx) : Statement (.sub x y) := of_row 14 (by decide)
  ⟨(and_maskOpN _).trans (by simp [encode]; rfl),
    congrArg₂ Instr.sub (xField_packXYN ..) (yField_packXYN ..)⟩

theorem shr (x y : RegIdx) : Statement (.shr x y) := of_row 15 (by decide)
  ⟨(and_maskOpN _).trans (by simp [encode]; rfl),
    congrArg₂ Instr.shr (xField_packXYN ..) (yField_packXYN ..)⟩

theorem subn (x y : RegIdx) : Statement (.subn x y) := of_row 16 (by decide)
  ⟨(and_maskOpN _).trans (by simp [encode]; rfl),
    congrArg₂ Instr.subn (xField_packXYN ..) (yField_packXYN ..)⟩

theorem shl (x y : RegIdx) : Statement (.shl x y) := of_row 17 (by decide)
  ⟨(and_maskOpN _).trans (by simp [encode]; rfl),
    congrArg₂ Instr.shl (xField_packXYN ..) (yField_packXYN ..)⟩

theorem sneReg (x y : RegIdx) : Statement (.sneReg x y) := of_row 18 (by decide)
  ⟨(and_maskOp _).trans (by simp [encode]; rfl),
    congrArg₂ Instr.sneReg (xField_packXYN ..) (yField_packXYN ..)⟩

theorem ldI (nnn : Word) : Statement (.ldI nnn) := fun h =>
  ⟨opcodeMap[19], List.getElem_mem (by decide), (and_maskOp _).trans (by simp [encode]; rfl),
    congrArg Instr.ldI (nnnField_packNNN _ _ h)⟩

theorem jpV0 (nnn : Word) : Statement (.jpV0 nnn) := fun h =>
  ⟨opcodeMap[20], List.getElem_mem (by decide), (and_maskOp _).trans (by simp [encode]; rfl),
    congrArg Instr.jpV0 (nnnField_packNNN _ _ h)⟩

theorem rnd (x : RegIdx) (nn : Byte) : Statement (.rnd x nn) := of_row 21 (by decide)
  ⟨(and_maskOp _).trans (by simp [encode]; rfl),
    congrArg₂ Instr.rnd (xField_packXNN ..) (nnField_packXNN ..)⟩

theorem drw (x y : RegIdx) (n : Nat) : Statement (.drw x y n) := fun h =>
  ⟨opcodeMap[22], List.getElem_mem (by decide), (and_maskOp _).trans (by simp [encode]; rfl),
    by
      show Instr.drw _ _ _ = _
      rw [encode, xField_packXYN, yField_packXYN, nField_packXYN, ofNat_rows_toNat _ h]⟩

theorem skp (x : RegIdx) : Statement (.skp x) := of_row 23 (by decide)
  ⟨(and_maskOpNN _).trans (by simp [encode]; rfl), congrArg Instr.skp (xField_packXNN ..)⟩

theorem sknp (x : RegIdx) : Statement (.sknp x) := of_row 24 (by decide)
  ⟨(and_maskOpNN _).trans (by simp [encode]; rfl), congrArg Instr.sknp (xField_packXNN ..)⟩

theorem ldVxDt (x : RegIdx) : Statement (.ldVxDt x) := of_row 25 (by decide)
  ⟨(and_maskOpNN _).trans (by simp [encode]; rfl), congrArg Instr.ldVxDt (xField_packXNN ..)⟩

theorem ldK (x : RegIdx) : Statement (.ldK x) := of_row 26 (by decide)
  ⟨(and_maskOpNN _).trans (by simp [encode]; rfl), congrArg Instr.ldK (xField_packXNN ..)⟩

theorem ldDtVx (x : RegIdx) : Statement (.ldDtVx x) := of_row 27 (by decide)
  ⟨(and_maskOpNN _).trans (by simp [encode]; rfl), congrArg Instr.ldDtVx (xField_packXNN ..)⟩

theorem ldStVx (x : RegIdx) : Statement (.ldStVx x) := of_row 28 (by decide)
  ⟨(and_maskOpNN _).trans (by simp [encode]; rfl), congrArg Instr.ldStVx (xField_packXNN ..)⟩

theorem addI (x : RegIdx) : Statement (.addI x) := of_row 29 (by decide)
  ⟨(and_maskOpNN _).trans (by simp [encode]; rfl), congrArg Instr.addI (xField_packXNN ..)⟩

theorem ldF (x : RegIdx) : Statement (.ldF x) := of_row 30 (by decide)
  ⟨(and_maskOpNN _).trans (by simp [encode]; rfl), congrArg Instr.ldF (xField_packXNN ..)⟩

theorem ldB (x : RegIdx) : Statement (.ldB x) := of_row 31 (by decide)
  ⟨(and_maskOpNN _).trans (by simp [encode]; rfl), congrArg Instr.ldB (xField_packXNN ..)⟩

theorem ldMemVx (x : RegIdx) : Statement (.ldMemVx x) := of_row 32 (by decide)
  ⟨(and_maskOpNN _).trans (by simp [encode]; rfl), congrArg Instr.ldMemVx (xField_packXNN ..)⟩

theorem ldVxMem (x : RegIdx) : Statement (.ldVxMem x) := of_row 33 (by decide)
  ⟨(and_maskOpNN _).trans (by simp [encode]; rfl), congrArg Instr.ldVxMem (xField_packXNN ..)⟩

end Sys2Proof.Laws.OpcodeRow
end

