-- ==== Sys2Proof/Tests/Slice0.lean ====
section
/-! SUPPORT. Tests of the model, each with the place of spec/ its expected result comes from (V and W numbers are
those of spec/95_test_vectors.md), and a witness for every statement of Obligations.lean that has hypotheses. -/

set_option Elab.async false

namespace Sys2Proof.Tests

open Sys2Proof Sys2Proof.Machine

/-! ### Helpers -/

/-- The state after Reset with LEGACY = 0 and INDEX_OVF_FLAG = 0, as 95 starts its vectors. -/
def base : State := State.afterReset Config.defaultFont false false

/-- s with these transactions waiting. -/
def queued (s : State) (ts : List Txn) : State := { s with pending := ts }

/-- The state a step answers. -/
def nextOf (o : Result) : Option State :=
  match o with
  | .next t => some t
  | .fault _ => none
  | .refused _ => none

/-- Why a step refuses. -/
def refusalOf (o : Result) : Option Refusal :=
  match o with
  | .next _ => none
  | .fault _ => none
  | .refused r => some r

/-- One Step of the word w placed at pc = 0x200, from the reset state as `setup` changes it. -/
def go (w : Word) (setup : State → State) (tickDue : Bool := false) (rnd : Byte := 0) : Option State :=
  nextOf (step (queued (setup (placeWord base w)) [.step tickDue rnd]))

/-- One transaction served in s. -/
def host (t : Txn) (s : State) : Option State := nextOf (step (queued s [t]))

/-- s with V[x] and V[y] set. -/
def regs2 (x : RegIdx) (a : Byte) (y : RegIdx) (b : Byte) (s : State) : State := (s.setV x a).setV y b

/-- s with bytes from address a upward. -/
def poke (a : Nat) (bs : List Byte) (s : State) : State := s.setMem (s.mem.writeList a bs)

/-- s with key k pressed. -/
def press (k : Fin 16) (s : State) : State := { s with key := s.key.set k true }

/-- s with sp = n and the top entry a. -/
def stacked (n : Fin 17) (k : Fin 16) (a : Word) (s : State) : State :=
  { s with sp := n, stack := s.stack.set k a }

/-- A core halted by a StackUnderflow. -/
def haltedBase : State := { base with halted := true, faultCode := 2, lastDiag := .halted, configOpen := false }

/-! ### WellFormed: what the check refuses (R74), and the widest operands it accepts -/

theorem smoke_jp_refused : (Instr.jp 0x1000).wf = false ∧ (Instr.jp 0xFFF).wf = true := by decide
theorem smoke_call_refused : (Instr.call 0x1000).wf = false ∧ (Instr.call 0xFFF).wf = true := by decide
theorem smoke_ldI_refused : (Instr.ldI 0x1000).wf = false ∧ (Instr.ldI 0xFFF).wf = true := by decide
theorem smoke_jpV0_refused : (Instr.jpV0 0x1000).wf = false ∧ (Instr.jpV0 0xFFF).wf = true := by decide
theorem smoke_drw_refused : (Instr.drw 1 2 16).wf = false ∧ (Instr.drw 1 2 15).wf = true := by decide
theorem smoke_assembler_refuses : assemble (.jp 0x1000) = none ∧ assemble (.drw 1 2 16) = none ∧
    assemble (.jp 0x234) = some 0x1234 := by decide

/-! ### Decoding: a word for every constructor, its bits written out from R62, R64 and R68
(op, X, Y, N, four bits each) -/

theorem test_decode_family0 :
    decodeWord 0b0000000011100000 = .ok .cls ∧
    decodeWord 0b0000000011101110 = .ok .ret := by decide

theorem test_decode_flow :
    decodeWord 0b0001001000110100 = .ok (.jp 0x234) ∧
    decodeWord 0b0010001100000000 = .ok (.call 0x300) ∧
    decodeWord 0b0011001101000010 = .ok (.seImm 3 0x42) ∧
    decodeWord 0b0100001101000010 = .ok (.sneImm 3 0x42) ∧
    decodeWord 0b0101000100100000 = .ok (.seReg 1 2) ∧
    decodeWord 0b1001000100100000 = .ok (.sneReg 1 2) ∧
    decodeWord 0b1011001101000101 = .ok (.jpV0 0x345) := by decide

theorem test_decode_alu :
    decodeWord 0b0110101001011100 = .ok (.ldImm 10 0x5C) ∧
    decodeWord 0b0111000111110000 = .ok (.addImm 1 0xF0) ∧
    decodeWord 0b1000000100100000 = .ok (.ldReg 1 2) ∧
    decodeWord 0b1000000100100001 = .ok (.orReg 1 2) ∧
    decodeWord 0b1000000100100010 = .ok (.andReg 1 2) ∧
    decodeWord 0b1000000100100011 = .ok (.xorReg 1 2) ∧
    decodeWord 0b1000000100100100 = .ok (.addReg 1 2) ∧
    decodeWord 0b1000000100100101 = .ok (.sub 1 2) ∧
    decodeWord 0b1000000100100110 = .ok (.shr 1 2) ∧
    decodeWord 0b1000000100100111 = .ok (.subn 1 2) ∧
    decodeWord 0b1000000100101110 = .ok (.shl 1 2) ∧
    decodeWord 0b1100001100001111 = .ok (.rnd 3 0x0F) := by decide

theorem test_decode_display_input :
    decodeWord 0b1101000100100101 = .ok (.drw 1 2 5) ∧
    decodeWord 0b1110001010011110 = .ok (.skp 2) ∧
    decodeWord 0b1110001010100001 = .ok (.sknp 2) ∧
    decodeWord 0b1111001100001010 = .ok (.ldK 3) := by decide

theorem test_decode_index_timer_memory :
    decodeWord 0b1010001011110000 = .ok (.ldI 0x2F0) ∧
    decodeWord 0b1111010100000111 = .ok (.ldVxDt 5) ∧
    decodeWord 0b1111010100010101 = .ok (.ldDtVx 5) ∧
    decodeWord 0b1111010100011000 = .ok (.ldStVx 5) ∧
    decodeWord 0b1111000100011110 = .ok (.addI 1) ∧
    decodeWord 0b1111000000101001 = .ok (.ldF 0) ∧
    decodeWord 0b1111001100110011 = .ok (.ldB 3) ∧
    decodeWord 0b1111000101010101 = .ok (.ldMemVx 1) ∧
    decodeWord 0b1111001001100101 = .ok (.ldVxMem 2) := by decide

/-- V8 to V14, R67, R69: unknown words, and don't-care bits. -/
theorem test_decode_unknown_and_dont_care :
    decodeWord 0x0000 = .error (.unknownOpcode 0x0000) ∧ decodeWord 0x0123 = .error (.unknownOpcode 0x0123) ∧
    decodeWord 0x8018 = .error (.unknownOpcode 0x8018) ∧ decodeWord 0x812F = .error (.unknownOpcode 0x812F) ∧
    decodeWord 0xE0A0 = .error (.unknownOpcode 0xE0A0) ∧ decodeWord 0xE19F = .error (.unknownOpcode 0xE19F) ∧
    decodeWord 0xF01F = .error (.unknownOpcode 0xF01F) ∧ decodeWord 0xF075 = .error (.unknownOpcode 0xF075) ∧
    decodeWord 0x01E0 = .ok .cls ∧ decodeWord 0x0FEE = .ok .ret ∧
    decodeWord 0x512F = .ok (.seReg 1 2) ∧ decodeWord 0x9125 = .ok (.sneReg 1 2) := by decide

/-- R61: two bytes are consumed, high byte first; fewer are none. -/
theorem test_decode_bytes :
    decode [0x6A, 0x5C, 0x77] = .ok (.ldImm 10 0x5C, [0x77]) ∧ decode [0x6A] = .error .truncated := by decide

/-- The host's interface to the decoder (opcode_table.json numbers bit 0 the least significant). -/
theorem test_decodeTableWord :
    decodeTableWord 16 0xD125 = some (.drw 1 2 5) ∧ decodeTableWord 16 0x8018 = none := by decide

/-! ### Control transfer -/

/-- W3 and the example of R76, with X don't-care (V13). -/
theorem test_cls : (go 0x01E0 fun s => { s with fb := flipPixel s.fb 3 4 }).map
    (fun t => (pixelAt t.fb 3 4, t.drawFlag, t.pc)) = some (false, true, 0x202) := by decide

/-- W11. -/
theorem test_ret : (go 0x00EE (stacked 1 0 0x204)).map (fun t => (t.pc, t.sp)) = some (0x206, 0) := by decide

/-- V15. -/
theorem test_ret_underflow : (go 0x00EE id).map (fun t => (t.pc, t.halted, t.faultCode, t.lastDiag)) =
    some (0x200, true, 2, .fault .stackUnderflow 0x200) := by decide

/-- V16, V17. -/
theorem test_jp : (go 0x1FFF id).map (·.pc) = some 0xFFF ∧ (go 0x1201 id).map (·.pc) = some 0x201 := by decide

/-- V18. -/
theorem test_call : (go 0x2400 (stacked 15 14 0x300)).map (fun t => (t.stack[15], t.sp, t.pc)) =
    some (0x200, 16, 0x400) := by decide

/-- V19. -/
theorem test_call_overflow : (go 0x2400 (stacked 16 15 0x300)).map
    (fun t => (t.stack[15], t.sp, t.pc, t.faultCode, t.lastDiag)) =
    some (0x300, 16, 0x200, 1, .fault .stackOverflow 0x200) := by decide

/-- V21. -/
theorem test_seImm : (go 0x35FF (·.setV 5 0xFF)).map (·.pc) = some 0x204 ∧
    (go 0x35FE (·.setV 5 0xFF)).map (·.pc) = some 0x202 := by decide

/-- V22. -/
theorem test_sneImm : (go 0x4510 (·.setV 5 0x10)).map (·.pc) = some 0x202 ∧
    (go 0x4511 (·.setV 5 0x10)).map (·.pc) = some 0x204 := by decide

/-- V24, V25. -/
theorem test_seReg : (go 0x5120 (regs2 1 3 2 4)).map (·.pc) = some 0x202 ∧
    (go 0x512F (regs2 1 3 2 3)).map (·.pc) = some 0x204 := by decide

/-- V27, V28. -/
theorem test_sneReg : (go 0x9125 (regs2 1 3 2 4)).map (·.pc) = some 0x204 ∧
    (go 0x9110 (·.setV 1 9)).map (·.pc) = some 0x202 := by decide

/-- V30, V31. -/
theorem test_jpV0 : (go 0xBFFF (·.setV 0 0xFF)).map (·.pc) = some 0x10FE ∧
    (go 0xB200 (·.setV 0 1)).map (·.pc) = some 0x201 := by decide

/-! ### ALU -/

/-- V33. -/
theorem test_ldImm : (go 0x6FAB id).map (fun t => (t.v[15], t.pc)) = some (0xAB, 0x202) := by decide

/-- V34. -/
theorem test_addImm : (go 0x7101 (regs2 1 0xFF 15 0x55)).map (fun t => (t.v[1], t.v[15])) =
    some (0, 0x55) := by decide

/-- V36. -/
theorem test_ldReg : (go 0x8120 (regs2 1 1 2 0x77)).map (fun t => (t.v[1], t.v[2])) =
    some (0x77, 0x77) := by decide

/-- V37: VF is not reset. -/
theorem test_or : (go 0x8121 fun s => (regs2 1 0xF0 2 0x0F s).setV 15 0x33).map (fun t => (t.v[1], t.v[15])) =
    some (0xFF, 0x33) := by decide

/-- V38. -/
theorem test_and : (go 0x8122 (regs2 1 0xF0 2 0x3C)).map (·.v[1]) = some 0x30 := by decide

/-- V39. -/
theorem test_xor : (go 0x8123 (regs2 1 0xF0 2 0x3C)).map (·.v[1]) = some 0xCC := by decide

/-- V46: the result overwrites the carry. -/
theorem test_addReg_to_vf : (go 0x8F14 (regs2 15 0xC8 1 0x64)).map (·.v[15]) = some 0x2C := by decide

/-- V47: the old VF is the addend. -/
theorem test_addReg_from_vf : (go 0x81F4 (regs2 1 0x10 15 0xF5)).map (fun t => (t.v[1], t.v[15])) =
    some (0x05, 1) := by decide

/-- V49. -/
theorem test_sub : (go 0x8125 (regs2 1 0 2 1)).map (fun t => (t.v[1], t.v[15])) = some (0xFF, 0) := by decide

/-- V51. -/
theorem test_sub_vf : (go 0x8FF5 (·.setV 15 7)).map (·.v[15]) = some 0 := by decide

/-- V55. -/
theorem test_shr : (go 0x8126 (regs2 1 5 2 8)).map (fun t => (t.v[1], t.v[15], t.v[2])) =
    some (2, 1, 8) := by decide

/-- V59: LEGACY = 1. -/
theorem test_shr_legacy : (go 0x81F6 fun s => { regs2 15 3 1 0x20 s with legacy := true }).map
    (fun t => (t.v[1], t.v[15])) = some (1, 1) := by decide

/-- W5. -/
theorem test_subn : (go 0x8017 (regs2 0 5 1 10)).map (fun t => (t.v[0], t.v[15])) = some (5, 1) ∧
    (go 0x8017 (regs2 0 10 1 5)).map (fun t => (t.v[0], t.v[15])) = some (251, 0) := by decide

/-- V60. -/
theorem test_shl : (go 0x812E (·.setV 1 0xFF)).map (fun t => (t.v[1], t.v[15])) = some (0xFE, 1) := by decide

/-- V61: LEGACY = 1. -/
theorem test_shl_legacy : (go 0x812E fun s => { regs2 1 1 2 0x80 s with legacy := true }).map
    (fun t => (t.v[1], t.v[15], t.v[2])) = some (0, 1, 0x80) := by decide

/-- V63, V64. -/
theorem test_rnd : (go 0xC1A5 id (rnd := 0xFF)).map (·.v[1]) = some 0xA5 ∧
    (go 0xC10F id (rnd := 0x5A)).map (·.v[1]) = some 0x0A := by decide

/-! ### Display and input -/

/-- V66: the sprite wraps at the right edge; bit 7 is leftmost. -/
theorem test_drw_wraps : (go 0xD011 fun s => (poke 0x300 [0xFF] (regs2 0 60 1 31 s)).setI 0x300).map
    (fun t => ((List.range 64).filter (pixelAt t.fb · 31), t.v[15], t.drawFlag, t.pc)) =
    some ([0, 1, 2, 3, 60, 61, 62, 63], 0, true, 0x202) := by decide

/-- V68: the collision. -/
theorem test_drw_collision :
    (go 0xD011 fun s => { (poke 0x300 [0xC0] s).setI 0x300 with fb := flipPixel s.fb 0 0 }).map
    (fun t => (pixelAt t.fb 0 0, pixelAt t.fb 1 0, t.v[15])) = some (false, true, 1) := by decide

/-- V74, V75. -/
theorem test_skp : (go 0xE29E fun s => press 5 (s.setV 2 5)).map (·.pc) = some 0x204 ∧
    (go 0xE29E (·.setV 2 5)).map (·.pc) = some 0x202 := by decide

/-- V76. -/
theorem test_skp_range : (go 0xE29E (·.setV 2 0x10)).map (fun t => (t.pc, t.faultCode, t.lastDiag)) =
    some (0x200, 5, .fault .keyRange 0x10) := by decide

/-- V74, V75. -/
theorem test_sknp : (go 0xE2A1 fun s => press 5 (s.setV 2 5)).map (·.pc) = some 0x202 ∧
    (go 0xE2A1 (·.setV 2 5)).map (·.pc) = some 0x204 := by decide

/-- V77. -/
theorem test_ldK : (go 0xF40A fun s => press 9 (press 3 s)).map (fun t => (t.v[4], t.pc)) =
    some (3, 0x202) := by decide

/-- V78. -/
theorem test_ldK_stall : (go 0xF40A (fun s => (s.setDt 2).setV 4 7) (tickDue := true)).map
    (fun t => (t.pc, t.v[4], t.dt)) = some (0x200, 7, 1) := by decide

/-! ### Index, timers, memory transfer -/

/-- V79. -/
theorem test_ldI : (go 0xA123 id).map (fun t => (t.i, t.pc)) = some (0x123, 0x202) := by decide

/-- V81: the tick follows the instruction. -/
theorem test_ldVxDt : (go 0xF507 (·.setDt 5) (tickDue := true)).map (fun t => (t.v[5], t.dt)) =
    some (5, 4) := by decide

/-- V82. -/
theorem test_ldDtVx : (go 0xF515 (·.setV 5 5) (tickDue := true)).map (·.dt) = some 4 := by decide

/-- V84, V85. -/
theorem test_ldStVx : (go 0xF518 (·.setV 5 1)).map (fun t => (t.st, soundActive t)) = some (1, false) ∧
    (go 0xF518 (·.setV 5 2)).map (fun t => (t.st, soundActive t)) = some (2, true) := by decide

/-- V89. -/
theorem test_addI : (go 0xF01E fun s => (regs2 0 1 15 0x77 s).setI 0xFFF).map (fun t => (t.i, t.v[15])) =
    some (0x1000, 0x77) := by decide

/-- V91: INDEX_OVF_FLAG = 1. -/
theorem test_addI_flag : (go 0xF01E fun s => { (s.setV 0 2).setI 0xFFFF with indexOvf := true }).map
    (fun t => (t.i, t.v[15])) = some (1, 1) := by decide

/-- V95. -/
theorem test_ldF : (go 0xF029 (·.setV 0 0xFF)).map (·.i) = some 1275 := by decide

/-- V97. -/
theorem test_ldB : (go 0xF133 fun s => (s.setV 1 255).setI 0x300).map
    (fun t => ([0x300, 0x301, 0x302].map t.mem.read, t.i)) = some ([2, 5, 5], 0x300) := by decide

/-- V100: no byte is written. -/
theorem test_ldB_range : (go 0xF133 fun s => (poke 0xFFE [0xAA] s).setI 0xFFE).map
    (fun t => (t.mem.read 0xFFE, t.faultCode, t.lastDiag)) = some (0xAA, 4, .fault .dataRange 0x1000) := by decide

/-- The example of R114. -/
theorem test_ldMemVx : (go 0xF155 fun s => (regs2 0 1 1 2 s).setI 0x300).map
    (fun t => ([0x300, 0x301, 0x302].map t.mem.read, t.i)) = some ([1, 2, 0], 0x302) := by decide

/-- V104. -/
theorem test_ldMemVx_range : (go 0xFF55 fun s => (s.setV 0 9).setI 0xFF8).map
    (fun t => (t.mem.read 0xFF8, t.i, t.lastDiag)) = some (0, 0xFF8, .fault .dataRange 0x1000) := by decide

/-- V106: the default font's glyph 0. -/
theorem test_ldVxMem : (go 0xF465 id).map (fun t => (t.v.toList.take 6, t.i)) =
    some ([0xF0, 0x90, 0x90, 0x90, 0xF0, 0], 5) := by decide

/-- V103. -/
theorem test_ldVxMem_range : (go 0xF065 fun s => (s.setV 0 9).setI 0x1000).map
    (fun t => (t.v[0], t.i, t.lastDiag)) = some (9, 0x1000, .fault .dataRange 0x1000) := by decide

/-! ### The Step and the other transactions -/

/-- V2 and V3. -/
theorem test_fetch_edge :
    (host (.step false 0) (poke 0xFFE [0x60, 0x07] (base.setPc 0xFFE))).map (fun t => (t.v[0], t.pc)) =
      some (7, 0x1000) ∧
    (host (.step true 0) (base.setPc 0xFFF)).map (fun t => (t.pc, t.faultCode, t.lastDiag)) =
      some (0xFFF, 3, .fault .fetchRange 0xFFF) := by decide

/-- V7. -/
theorem test_unknown_opcode : (go 0x0000 (·.setDt 3) (tickDue := true)).map
    (fun t => (t.pc, t.dt, t.halted, t.lastDiag)) = some (0x200, 2, false, .unknownOpcode 0) := by decide

/-- V5, V6. -/
theorem test_halted_core : (host (.step true 0) (haltedBase.setDt 5)).map (fun t => (t.dt, t.lastDiag)) =
      some (5, .halted) ∧ (host .tick (haltedBase.setDt 5)).map (·.dt) = some 5 := by decide

/-- V86. -/
theorem test_tick : (host .tick (base.setSt 1)).map (fun t => (t.dt, t.st)) = some (0, 0) := by decide

/-- V109. -/
theorem test_load : (host (.load [0xAB, 0xCD]) (poke 0x200 [0x11, 0x22, 0x33, 0x44] base)).map
    (fun t => ([0x200, 0x201, 0x202, 0x203].map t.mem.read, t.reply)) =
    some ([0xAB, 0xCD, 0x33, 0x44], .loaded) := by decide

/-- V111. -/
theorem test_getPixel : (host (.getPixel 67 36) { base with fb := flipPixel base.fb 3 4 }).map (·.reply) =
    some (.pixel true) := by decide

/-- V112. -/
theorem test_setConfig_refused :
    refusalOf (step (queued { base with configOpen := false } [.setConfig true true])) =
      some .setConfigAfterFirstStep := by decide

/-- R106. -/
theorem test_setKey_refused : refusalOf (step (queued base [.setKey 16 true])) = some .setKeyOutOfRange := by
  decide

/-- R57: the oldest transaction is served first, and the rest wait. -/
theorem test_queue_order : (nextOf (step (queued base [.setKey 7 true, .tick]))).map
    (fun t => (t.key[7], t.pending)) = some (true, [.tick]) := by decide

/-- R131: Reset from a halted core. -/
theorem test_reset : (host .reset (poke 0x10 [0xFF] (haltedBase.setV 3 9))).map
    (fun t => (t.halted, t.faultCode, t.v[3], t.mem.cells.length, t.pc, t.configOpen)) =
    some (false, 0, 0, 0, 0x200, true) := by decide

/-- The very next step after withFetchWord runs the word, right after reset, whatever the free inputs. -/
theorem test_withFetchWord : (nextOf (step (State.reset.withFetchWord 16 0x6A5C))).map
    (fun t => (t.v[10], t.pc, t.lastDiag)) = some (0x5C, 0x202, .ok) := by decide

/-! ### Memory keeps its canonical form -/

/-- Writing what the unlisted address reads as removes the entry. -/
theorem test_memory_canonical :
    ((base.mem.write 0x301 5).write 0x300 7).cells = [(0x300, 7), (0x301, 5)] ∧
    (((base.mem.write 0x301 5).write 0x300 7).write 0x301 0).cells = [(0x300, 7)] ∧
    (base.mem.write 0 0xF0).cells = [] ∧ (base.mem.write 4096 1).cells = [] := by decide

/-! ### Witnesses: states and operands that meet a statement's hypotheses, each clause at a boundary -/

/-- The state i leads to from s. -/
def after (i : Instr) (s : State) : Option State := nextOf (exec i s)

/-- A waiting Step is issued. -/
theorem issued (s : State) (tickDue : Bool) (rnd : Byte) :
    StepIssued (queued s [.step tickDue rnd]) tickDue rnd (queued s []) := .inl ⟨[], rfl, rfl⟩

theorem witness_DecodeInvertsEncode :
    (Instr.jp 0xFFF).wf = true ∧ (Instr.drw 15 15 15).wf = true ∧ (Instr.drw 0 0 0).wf = true ∧
    (Instr.ldImm 15 0xFF).wf = true := by decide

theorem witness_DontCareBitsAreIgnoredAndNoOthers :
    decodeWord 0x0FE0 = .ok .cls ∧ decodeWord 0x512F = .ok (.seReg 1 2) ∧
    decodeWord 0x912F = .ok (.sneReg 1 2) ∧ decodeWord 0x812E = .ok (.shl 1 2) := by decide

/-- The listed words at the ends of each of R69's four ranges, and their neighbours that do decode. -/
theorem witness_UnknownOpcodesAreTheListedOnes :
    ([0x00DF, 0x00E1, 0x00ED, 0x00EF, 0x8008, 0x800D, 0x800F, 0xE09D, 0xE0A2, 0xF006, 0xF066].all
      fun w => decide (decodeWord w = .error (.unknownOpcode w))) = true ∧
    ([0x00E0, 0x00EE, 0x8007, 0x800E, 0xE09E, 0xE0A1, 0xF007, 0xF065].all
      fun w => decide (decodeWord w ≠ .error (.unknownOpcode w))) = true := by decide

/-- A Step that waits, its instruction in the last two bytes of memory. -/
theorem witness_StepRunsTheDecodedInstruction : ∃ (s s0 : State) (tickDue : Bool) (rnd : Byte) (i : Instr)
    (rest : List Byte) (t : State), StepIssued s tickDue rnd s0 ∧ s.halted = false ∧ s.pc.toNat + 1 < 4096 ∧
      decode [s.mem.read s.pc.toNat, s.mem.read (s.pc.toNat + 1)] = .ok (i, rest) ∧
      exec i (begun s0 rnd) = .next t :=
  ⟨queued (poke 0xFFE [0x60, 0x07] (base.setPc 0xFFE)) [.step true 9], _, true, 9, .ldImm 0 7, [], _,
    issued _ _ _, by decide, by decide, by decide, rfl⟩

/-- The host's own Step with free inputs. -/
theorem witness_StepRunsTheDecodedInstruction_free : ∃ (s s0 : State) (tickDue : Bool) (rnd : Byte) (i : Instr)
    (rest : List Byte) (t : State), StepIssued s tickDue rnd s0 ∧ s.halted = false ∧ s.pc.toNat + 1 < 4096 ∧
      decode [s.mem.read s.pc.toNat, s.mem.read (s.pc.toNat + 1)] = .ok (i, rest) ∧
      exec i (begun s0 rnd) = .next t :=
  ⟨State.reset.withFetchWord 16 0x6007, _, _, _, .ldImm 0 7, [], _, .inr ⟨rfl, rfl, rfl, rfl⟩, by decide,
    by decide, by decide, rfl⟩

theorem witness_FetchIsBigEndianAndRangeChecked :
    (base.setPc 0xFFE).pc.toNat + 1 < 4096 ∧
    ∃ (s s0 : State) (tickDue : Bool) (rnd : Byte), StepIssued s tickDue rnd s0 ∧ s.halted = false ∧
      4096 ≤ s.pc.toNat + 1 :=
  ⟨by decide, queued (base.setPc 0xFFF) [.step true 0], _, true, 0, issued _ _ _, by decide, by decide⟩

theorem witness_UnknownOpcodeIsReportedAndLeavesTheRest : ∃ (s s0 : State) (tickDue : Bool) (rnd : Byte)
    (w : Word) (e : DecodeError), StepIssued s tickDue rnd s0 ∧ s.halted = false ∧ fetch s = some w ∧
      decodeWord w = .error e :=
  ⟨queued (placeWord base 0x8018) [.step true 0], _, true, 0, 0x8018, .unknownOpcode 0x8018, issued _ _ _,
    by decide, by decide, by decide⟩

theorem witness_FaultsArePrecise : ∃ (i : Instr) (s t : State), s.halted = false ∧ exec i s = .next t ∧
    t.halted = true := ⟨.ret, base, _, rfl, rfl, rfl⟩

/-- Both sides of the fetch's boundary (V3). -/
theorem witness_FaultsAreRaisedExactlyAsTabled_fetch :
    ((host (.step true 0) (base.setPc 0xFFF)).map fun t => (t.halted, t.faultCode, t.lastDiag)) =
      some (true, 3, .fault .fetchRange 0xFFF) ∧
    ((host (.step true 0) (poke 0xFFE [0x60, 0x07] (base.setPc 0xFFE))).map
      fun t => (t.halted, t.faultCode, t.lastDiag)) = some (false, 0, .ok) := by decide

/-- Every row of the table at its boundary: the first value that faults and the last that does not. -/
theorem witness_FaultsAreRaisedExactlyAsTabled :
    [after (.call 0x300) (stacked 16 15 0 base), after (.call 0x300) (stacked 15 14 0 base),
      after .ret base, after .ret (stacked 1 0 0 base),
      after (.drw 0 1 1) (base.setI 0x1000), after (.drw 0 1 15) (base.setI 0xFF1), after (.drw 0 1 0) (base.setI 0x1000),
      after (.ldB 0) (base.setI 0xFFE), after (.ldB 0) (base.setI 0xFFD),
      after (.ldMemVx 15) (base.setI 0xFF1), after (.ldMemVx 15) (base.setI 0xFF0),
      after (.ldVxMem 15) (base.setI 0xFF1), after (.ldVxMem 15) (base.setI 0xFF0),
      after (.skp 0) (base.setV 0 16), after (.skp 0) (base.setV 0 15),
      after (.sknp 0) (base.setV 0 16), after (.sknp 0) (base.setV 0 15)].map (·.map (·.halted)) =
    [some true, some false, some true, some false, some true, some false, some false, some true, some false,
      some true, some false, some true, some false, some true, some false, some true, some false] := by decide

theorem witness_HaltedCoreIsFrozen :
    (∃ (s s0 : State) (tickDue : Bool) (rnd : Byte), StepIssued s tickDue rnd s0 ∧ s.halted = true) ∧
    (∃ (s : State) (rest : List Txn), s.pending = .tick :: rest ∧ s.halted = true) :=
  ⟨⟨queued haltedBase [.step true 0], _, true, 0, issued _ _ _, rfl⟩, ⟨queued haltedBase [.tick], [], rfl, rfl⟩⟩

theorem witness_OnlyResetLeavesTheHaltedState : ∃ s t : State, s.halted = true ∧ step s = .next t ∧
    t.halted = false := ⟨queued haltedBase [.reset], _, rfl, rfl, rfl⟩

theorem base_inv : base.Inv :=
  ⟨by decide, by decide, by decide, by decide, by decide, by decide⟩

theorem witness_EveryStepKeepsTheInvariant : ∃ s t : State, s.Inv ∧ step s = .next t :=
  ⟨queued base [.step true 0], _,
    ⟨base_inv.memory, base_inv.pcBound, base_inv.returns, base_inv.code, base_inv.diag, base_inv.config⟩, rfl⟩

/-- A state at the bounds of the invariant: the highest pc, a full stack of the highest return addresses. -/
theorem witness_invariant_bounds : State.Inv
    { base with pc := 0x10FE, sp := 16, stack := Vector.replicate 16 0xFFE } :=
  ⟨by decide, by decide, by decide, by decide, by decide, by decide⟩

theorem witness_StackBelongsToCallAndRet : (∃ t, exec .cls base = .next t) ∧
    (∃ t, exec (.call 0x300) base = .next t ∧ t.sp ≠ base.sp) := ⟨⟨_, rfl⟩, ⟨_, rfl, by decide⟩⟩

/-- Each clause at its last byte, the top of memory. -/
theorem witness_MemoryIsStoredByFx33AndFx55Alone :
    (∃ s t : State, exec (.ldB 0) s = .next t ∧ t.mem.read 0xFFF ≠ s.mem.read 0xFFF) ∧
    (∃ s t : State, exec (.ldMemVx 15) s = .next t ∧ t.mem.read 0xFFF ≠ s.mem.read 0xFFF) :=
  ⟨⟨(base.setV 0 255).setI 0xFFD, _, rfl, by decide⟩, ⟨(base.setV 15 9).setI 0xFF0, _, rfl, by decide⟩⟩

theorem witness_ScreenBelongsToClsAndDrw :
    (∃ t, base.halted = false ∧ exec .cls base = .next t ∧ t.halted = false) ∧
    (∃ t, exec (.drw 0 1 5) base = .next t ∧ t.halted = false) ∧
    (∃ s t : State, exec (.jp 0x300) s = .next t ∧ s.drawFlag = true) :=
  ⟨⟨_, rfl, rfl, rfl⟩, ⟨_, rfl, by decide⟩, ⟨{ base with drawFlag := true }, _, rfl, rfl⟩⟩

theorem witness_InstructionsLeaveTheHostsStateAlone : ∃ t, exec (.addI 0) base = .next t := ⟨_, rfl⟩

theorem witness_IndexAndTimersHaveTheirOwnWriters :
    (∃ t, exec (.ldVxMem 0) base = .next t ∧ t.i ≠ base.i) ∧
    (∃ s t : State, exec (.ldDtVx 0) s = .next t ∧ t.dt ≠ s.dt) ∧
    (∃ s t : State, exec (.ldStVx 0) s = .next t ∧ t.st ≠ s.st) :=
  ⟨⟨_, rfl, by decide⟩, ⟨base.setV 0 1, _, rfl, by decide⟩, ⟨base.setV 0 1, _, rfl, by decide⟩⟩

theorem witness_RegistersAreWrittenAsNamed :
    (∃ t, exec (.ldImm 3 9) base = .next t ∧ t.v[(3 : RegIdx)] ≠ base.v[(3 : RegIdx)]) ∧
    (∃ t, exec (.sub 1 2) base = .next t ∧ t.v[(15 : RegIdx)] ≠ base.v[(15 : RegIdx)]) ∧
    (∃ s t : State, exec (.ldVxMem 15) s = .next t ∧ t.v[(15 : RegIdx)] ≠ s.v[(15 : RegIdx)]) ∧
    (∃ s t : State, exec (.addI 0) s = .next t ∧ t.v[(15 : RegIdx)] ≠ s.v[(15 : RegIdx)]) :=
  ⟨⟨_, rfl, by decide⟩, ⟨_, rfl, by decide⟩, ⟨base.setI 0x10, _, rfl, by decide⟩,
    ⟨{ base.setV 0 2 with i := 0xFFE, indexOvf := true }, _, rfl, by decide⟩⟩

theorem witness_PcIsUpdatedAsListed :
    (∃ s s0 t : State, StepIssued s true 0 s0 ∧ s.halted = false ∧
      (∃ w e, fetch s = some w ∧ decodeWord w = .error e) ∧ step s = .next t) ∧
    (∃ s s0 t : State, StepIssued s true 0 s0 ∧ s.halted = false ∧ 4096 ≤ s.pc.toNat + 1 ∧
      step s = .next t) ∧
    (∃ t, base.halted = false ∧ exec .ret base = .next t ∧ t.halted = true) ∧
    (∃ s t : State, s.halted = false ∧ exec .ret s = .next t ∧ t.halted = false) ∧
    (∃ s t : State, s.halted = false ∧ exec (.skp 0) s = .next t ∧ t.halted = false) :=
  ⟨⟨queued (placeWord base 0xE0A0) [.step true 0], _, _, issued _ _ _, by decide,
      ⟨0xE0A0, .unknownOpcode 0xE0A0, by decide, by decide⟩, rfl⟩,
    ⟨queued (base.setPc 0xFFF) [.step true 0], _, _, issued _ _ _, by decide, by decide, rfl⟩,
    ⟨_, rfl, rfl, rfl⟩, ⟨stacked 16 15 0xFFE base, _, rfl, rfl, rfl⟩, ⟨base.setV 0 15, _, rfl, rfl, rfl⟩⟩

theorem witness_ConfigurationIsReadOnlyWhereNamed : ∃ t, exec (.sub 1 2) base = .next t := ⟨_, rfl⟩

theorem witness_CanonicalMemoriesThatReadAlikeAreEqual : ∃ m m' : Memory, m.wf = true ∧ m'.wf = true ∧
    m.font = m'.font ∧ (∀ a, a < 4096 → m.read a = m'.read a) ∧ m.cells ≠ [] :=
  ⟨base.mem.write 0xFFF 5, (base.mem.write 0xFFF 7).write 0xFFF 5, by decide, by decide, by decide,
    fun _ _ => by congr 1, by decide⟩

/-- FX33 and FX55 (all registers, and V0 alone) at the top of memory, and Fetches that cover their bytes. -/
theorem witness_StoredBytesAreFetched :
    (∃ s t : State, s.indexAddr 2 < 4096 ∧ exec (.ldB 0) s = .next t ∧
      (0xFFE : Word).toNat + 1 = s.indexAddr 2 ∧ (0xFFE : Word).toNat + 1 < 4096) ∧
    (∃ s t : State, s.indexAddr (15 : RegIdx).val < 4096 ∧ exec (.ldMemVx 15) s = .next t ∧
      (15 : RegIdx).val = (14 : RegIdx).val + 1 ∧ (0xFFE : Word).toNat = s.indexAddr (14 : RegIdx).val) ∧
    (∃ s t : State, s.indexAddr (0 : RegIdx).val < 4096 ∧ exec (.ldMemVx 0) s = .next t ∧
      (0xFFE : Word).toNat + 1 = s.indexAddr (0 : RegIdx).val) :=
  ⟨⟨base.setI 0xFFD, _, by decide, rfl, by decide, by decide⟩,
    ⟨base.setI 0xFF0, _, by decide, rfl, by decide, by decide⟩, ⟨base.setI 0xFFF, _, by decide, rfl, by decide⟩⟩

/-- V107, V108: the longest program that loads, and one byte more. -/
theorem witness_LoadCopiesTheProgramOrChangesNothing :
    (∃ (s : State) (bytes : List Byte), s.pending = [.load bytes] ∧ ¬bytes.length > 3584 ∧ bytes ≠ []) ∧
    (∃ (s : State) (bytes : List Byte), s.pending = [.load bytes] ∧ bytes.length > 3584) :=
  ⟨⟨queued base [.load (List.replicate 3584 1)], _, rfl, by rw [List.length_replicate]; omega,
      List.ne_nil_of_length_pos (by rw [List.length_replicate]; omega)⟩,
    ⟨queued base [.load (List.replicate 3585 1)], _, rfl, by rw [List.length_replicate]; omega⟩⟩

theorem witness_ResetRestoresEveryElement : ∃ s : State, s.pending = [.reset] ∧ s.halted = true :=
  ⟨queued haltedBase [.reset], rfl, rfl⟩

theorem witness_SetConfigIsAcceptedOnlyBeforeTheFirstStep :
    (∃ s : State, s.pending = [.setConfig true true] ∧ s.configOpen = true) ∧
    (∃ s : State, s.pending = [.setConfig true true] ∧ s.configOpen = false) ∧
    (∃ s t : State, step s = .next t ∧ s.pending = [.reset]) ∧
    (∃ s t s0 : State, step s = .next t ∧ StepIssued s true 0 s0 ∧ s.halted = false) ∧
    (∃ s t : State, step s = .next t ∧ (∀ tickDue rnd s0, ¬StepIssued s tickDue rnd s0) ∧
      ∀ rest, s.pending ≠ .reset :: rest) :=
  ⟨⟨queued base [.setConfig true true], rfl, rfl⟩, ⟨queued haltedBase [.setConfig true true], rfl, rfl⟩,
    ⟨queued base [.reset], _, rfl, rfl⟩,
    ⟨queued (placeWord base 0x6007) [.step true 0], _, _, rfl, issued _ _ _, rfl⟩,
    ⟨queued base [.tick], _, rfl, by simp [StepIssued, queued], by simp [queued]⟩⟩

theorem witness_SetKeyWritesOneLatchBit :
    (∃ (s : State) (j : Fin 16), s.pending = [.setKey 15 true] ∧ j.val = 15) ∧
    (∃ s : State, s.pending = [.setKey 16 true] ∧ 15 < 16) ∧ (∃ t, exec (.ldK 0) base = .next t) :=
  ⟨⟨queued base [.setKey 15 true], 15, rfl, rfl⟩, ⟨queued base [.setKey 16 true], rfl, by omega⟩, ⟨_, rfl⟩⟩

theorem witness_LatchAndConfigurationChangeOnlyByTheHost :
    (∃ s t : State, step s = .next t ∧ t.key[(15 : Fin 16)] ≠ s.key[(15 : Fin 16)]) ∧
    (∃ s t : State, step s = .next t ∧ t.legacy ≠ s.legacy) :=
  ⟨⟨queued base [.setKey 15 true], _, rfl, by decide⟩, ⟨queued base [.setConfig true false], _, rfl, by decide⟩⟩

theorem witness_HostReadsChangeNothing :
    (queued base [.getPixel 64 32]).pending = [.getPixel 64 32] ∧
    (queued base [.readOutputs]).pending = [.readOutputs] ∧
    (queued base [.clearDrawFlag]).pending = [.clearDrawFlag] := ⟨rfl, rfl, rfl⟩

theorem witness_TickCountsTheTimersDown :
    (∃ s : State, s.pending = [.tick] ∧ s.halted = false) ∧ (∃ s : State, s.pending = [.tick] ∧ s.halted = true) ∧
    (∃ (s s0 : State) (tickDue : Bool) (rnd : Byte) (w : Word) (i : Instr) (t : State),
      StepIssued s tickDue rnd s0 ∧ s.halted = false ∧ fetch s = some w ∧ decodeWord w = .ok i ∧
      exec i (begun s0 rnd) = .next t ∧ tickDue = true ∧ t.halted = false) :=
  ⟨⟨queued base [.tick], rfl, rfl⟩, ⟨queued haltedBase [.tick], rfl, rfl⟩,
    ⟨queued (placeWord base 0xF507) [.step true 0], _, true, 0, 0xF507, .ldVxDt 5, _, issued _ _ _, by decide,
      by decide, by decide, rfl, rfl, rfl⟩⟩

theorem witness_TicksInARowStopAtZero : ∃ s : State, s.pending = List.replicate 3 .tick ++ [.reset] ∧
    s.halted = false := ⟨queued base [.tick, .tick, .tick, .reset], rfl, rfl⟩

theorem witness_RetPopsTheReturnAddress :
    (∃ s : State, s.sp.val = (0 : Fin 16).val + 1) ∧ (∃ s : State, s.sp.val = (15 : Fin 16).val + 1) ∧
    (∃ s : State, s.sp.val = 0) := ⟨⟨stacked 1 0 0 base, rfl⟩, ⟨stacked 16 15 0 base, rfl⟩, ⟨base, rfl⟩⟩

theorem witness_CallPushesItsAddress :
    (∃ s : State, s.sp.val = (0 : Fin 16).val) ∧ (∃ s : State, s.sp.val = (15 : Fin 16).val) ∧
    (∃ s : State, s.sp.val = 16) := ⟨⟨base, rfl⟩, ⟨stacked 15 14 0 base, rfl⟩, ⟨stacked 16 15 0 base, rfl⟩⟩

theorem witness_CallThenRetReturnsAfterTheCall : ∃ s : State, s.sp.val < 16 :=
  ⟨stacked 15 14 0 base, by decide⟩

theorem witness_JpV0AddsV0ToItsTarget : ∃ nnn : Word, nnn.toNat ≤ 0xFFF := ⟨0xFFF, by decide⟩

theorem witness_SkipsFollowTheirCondition : ∃ s : State, s.v[(5 : RegIdx)] = 0xFF ∧
    s.v[(5 : RegIdx)] ≠ 0xFE ∧ s.v[(5 : RegIdx)] = s.v[(6 : RegIdx)] ∧ s.v[(5 : RegIdx)] ≠ s.v[(7 : RegIdx)] :=
  ⟨regs2 5 0xFF 6 0xFF base, by decide⟩

/-- Sums of 255 and 256 (V41, V42), with a destination that is not VF. -/
theorem witness_AddWritesSumAndCarry : (1 : RegIdx) ≠ 15 ∧
    (after (.addReg 1 2) (regs2 1 0xFF 2 0 base)).map (·.v[15]) = some 0 ∧
    (after (.addReg 1 2) (regs2 1 0xFF 2 1 base)).map (·.v[15]) = some 1 := by decide

/-- Equal operands, and one less (V48, V53). -/
theorem witness_SubtractsWriteDifferenceAndBorrow : (1 : RegIdx) ≠ 15 ∧
    (after (.sub 1 2) (regs2 1 5 2 5 base)).map (·.v[15]) = some 1 ∧
    (after (.subn 1 2) (regs2 1 1 2 0 base)).map (·.v[15]) = some 0 := by decide

/-- LEGACY = 0 and LEGACY = 1 (V57, V61). -/
theorem witness_ShiftsMoveTheirSourceByOne : (1 : RegIdx) ≠ 15 ∧
    (after (.shr 1 1) (base.setV 1 1)).map (·.v[15]) = some 1 ∧
    (after (.shl 1 2) { regs2 1 1 2 0x80 base with legacy := true }).map (·.v[15]) = some 1 := by decide

theorem witness_RndMasksTheStepsRandomByte_others : ∃ t, (∀ x nn, Instr.cls ≠ .rnd x nn) ∧
    exec .cls base = .next t := ⟨_, by simp, rfl⟩

theorem witness_RndMasksTheStepsRandomByte : ∃ (s s0 : State) (tickDue : Bool) (rnd : Byte) (w : Word),
    StepIssued s tickDue rnd s0 ∧ s.halted = false ∧ fetch s = some w ∧ decodeWord w = .ok (.rnd 1 0xA5) :=
  ⟨queued (placeWord base 0xC1A5) [.step true 0xFF], _, true, 0xFF, 0xC1A5, issued _ _ _, by decide, by decide,
    by decide⟩

/-- V71, V72, V69: the last sprite that fits, the first that does not, and no rows at all. -/
theorem witness_DrwXorsTheSprite :
    (∃ s : State, 15 ≤ 15 ∧ s.indexAddr 15 = 4096) ∧ (∃ s : State, 1 ≠ 0 ∧ 4096 < s.indexAddr 1) ∧
    (∃ s : State, 4096 < s.indexAddr 0 ∧ (after (.drw 0 1 0) s).map (·.halted) = some false) :=
  ⟨⟨base.setI 0xFF1, by decide⟩, ⟨base.setI 0x1000, by decide⟩, ⟨base.setI 0xFFFF, by decide⟩⟩

theorem witness_DrawingTwiceRestoresTheScreen : ∃ s t : State, s.indexAddr 15 ≤ 4096 ∧
    exec (.drw 0 1 15) s = .next t ∧ t.v[(0 : RegIdx)] = s.v[(0 : RegIdx)] ∧
    t.v[(1 : RegIdx)] = s.v[(1 : RegIdx)] ∧ pixelAt t.fb 63 31 ≠ pixelAt s.fb 63 31 :=
  ⟨(poke 0xFF1 [0x80] (regs2 0 63 1 31 base)).setI 0xFF1, _, by decide, rfl, by decide, by decide, by decide⟩

theorem witness_KeySkipsTestTheLatch :
    (∃ s : State, s.v[(2 : RegIdx)].toNat = (15 : Fin 16).val ∧ s.key[(15 : Fin 16)] = true) ∧
    (∃ s : State, s.v[(2 : RegIdx)].toNat = (0 : Fin 16).val ∧ s.key[(0 : Fin 16)] = false) ∧
    (∃ s : State, 15 < s.v[(2 : RegIdx)].toNat) :=
  ⟨⟨press 15 (base.setV 2 15), by decide⟩, ⟨base, by decide⟩, ⟨base.setV 2 16, by decide⟩⟩

theorem witness_WaitForKeyTakesTheLowestKey :
    (∃ s : State, s.key[(15 : Fin 16)] = true ∧ ∀ j : Fin 16, j < 15 → s.key[j] = false) ∧
    (∃ s : State, ∀ k : Fin 16, s.key[k] = false) := ⟨⟨press 15 base, by decide⟩, ⟨base, by decide⟩⟩

/-- Three Steps with unlike inputs, two of their ticks due. -/
theorem witness_WaitForKeyStallsForEver : ∃ (inputs : List (Bool × Byte)) (s : State) (w : Word),
    s.pending = inputs.map (fun input => .step input.1 input.2) ++ [.setKey 7 true] ∧ s.halted = false ∧
    fetch s = some w ∧ decodeWord w = .ok (.ldK 3) ∧ (∀ k : Fin 16, s.key[k] = false) ∧
    inputs.countP (fun input => input.1) = 2 :=
  ⟨[(true, 7), (false, 9), (true, 0)],
    queued (placeWord base 0xF30A) [.step true 7, .step false 9, .step true 0, .setKey 7 true], 0xF30A, rfl,
    by decide, by decide, by decide, by decide, by decide⟩

/-- V90, V88: sums of 0xFFF and 0x1000. -/
theorem witness_AddIWrapsAndFlagsWhenConfigured :
    ({ base with indexOvf := true } : State).indexOvf = true ∧ base.indexOvf = false ∧
    (after (.addI 0) { (base.setV 0 1).setI 0xFFE with indexOvf := true }).map (·.v[15]) = some 0 ∧
    (after (.addI 0) { (base.setV 0 1).setI 0xFFF with indexOvf := true }).map (·.v[15]) = some 1 := by decide

theorem witness_BcdStoresThreeDigits : (base.setI 0xFFD).indexAddr 2 < 4096 ∧
    4096 ≤ (base.setI 0xFFE).indexAddr 2 := by decide

theorem witness_BlockStoreWritesRegistersAndAdvancesIndex :
    (base.setI 0xFF0).indexAddr (15 : RegIdx).val < 4096 ∧
    4096 ≤ (base.setI 0xFF1).indexAddr (15 : RegIdx).val := by decide

theorem witness_BlockLoadReadsRegistersAndAdvancesIndex :
    (base.setI 0xFFF).indexAddr (0 : RegIdx).val < 4096 ∧
    4096 ≤ (base.setI 0x1000).indexAddr (0 : RegIdx).val := by decide

theorem witness_BlockStoreThenLoadGivesTheRegistersBack : ∃ s t : State,
    s.indexAddr (15 : RegIdx).val < 4096 ∧ exec (.ldMemVx 15) s = .next t :=
  ⟨base.setI 0xFF0, _, by decide, rfl⟩

end Sys2Proof.Tests
end

/-! The state (spec/10_state.md): which registers and which pc an instruction leaves, the window of SetConfig, and
the host's reads. -/

namespace Sys2Proof.Machine

/-! ### What an instruction changes it may write -/

/-- A part that differs after an instruction is one the instruction may write. -/
theorem mem_mayWrite_of_changed {i : Instr} {s t : State} {p : Part} (h : exec i s = .next t)
    (hc : ¬p.same s t) : p ∈ mayWrite s i :=
  by_contra fun hp => hc (exec_onlyWrites h p hp)

theorem reg_not_mem_bytesFrom (r : RegIdx) (a n : Nat) : Part.reg r ∉ bytesFrom a n := by
  simp [bytesFrom]

theorem reg_mem_regsThrough (r x : RegIdx) : Part.reg r ∈ regsThrough x ↔ r ≤ x := by
  simp [regsThrough]

/-- Settles O21: a changed register is one the instruction may write, and that is its X, or VF, or one of V[0]
to V[X]. -/
theorem registersAreWrittenAsNamed : Obligations.RegistersAreWrittenAsNamed := by
  intro i s t r h hr
  have hm : Part.reg r ∈ mayWrite s i := mem_mayWrite_of_changed h hr
  cases i <;> simp only [mayWrite, faultParts] at hm
  case ldVxMem x =>
    have hle : r ≤ x := by simpa [reg_mem_regsThrough] using hm
    simp [hle]
  case drw x y n =>
    obtain rfl : r = 15 := by simpa using hm
    simp
  case addI x =>
    obtain ⟨ho, rfl⟩ : s.indexOvf = true ∧ r = 15 := by simpa using hm
    simp [ho]
  case addReg x y | sub x y | shr x y | subn x y | shl x y =>
    obtain rfl | rfl : r = 15 ∨ r = x := by simpa using hm
    · simp
    · simp
  case ldImm x b | addImm x b | rnd x b | ldReg x b | orReg x b | andReg x b | xorReg x b =>
    obtain rfl : r = x := by simpa using hm
    simp
  case ldVxDt x | ldK x =>
    obtain rfl : r = x := by simpa using hm
    simp
  all_goals simp [reg_not_mem_bytesFrom] at hm

/-! ### The pc -/

theorem zext16_toNat (b : Byte) : (zext16 b).toNat = b.toNat := by
  simp [zext16]; omega

theorem offsetTarget_toNat (s : State) (nnn : Word) :
    (s.offsetTarget nnn).toNat = (nnn.toNat + s.v[0].toNat) % 65536 := by
  simp [State.offsetTarget, zext16_toNat, State.reg]

theorem keyOf_eq_some {s : State} {x : RegIdx} {pressed : Bool} (h : s.keyOf x = some pressed) :
    ∃ k : Fin 16, (s.reg x).toNat = k.val ∧ s.key[k] = pressed := by
  unfold State.keyOf at h
  split at h
  · rename_i hlt
    exact ⟨⟨_, hlt⟩, rfl, Option.some.inj h⟩
  · cases h

/-- A range-checked transfer that raised no fault went through. -/
theorem whenInRange_of_running {base count : Nat} {s k : State}
    (h : (whenInRange base count s k).halted = false) : whenInRange base count s k = k := by
  rcases whenInRange_cases base count s k with ⟨-, e⟩ | ⟨-, -, e⟩
  · exact e
  · rw [e] at h; cases h

/-- A fault leaves pc at the instruction's address (R22, R121). -/
theorem exec_pc_of_fault {i : Instr} {s t : State} (hs : s.halted = false) (h : exec i s = .next t)
    (ht : t.halted = true) : t.pc = s.pc := by
  rcases exec_fault_cases h with ⟨c, n, rfl⟩ | ⟨hk, -, -⟩
  · rfl
  · rw [hk, hs] at ht; cases ht

/-- A Step that executes no instruction leaves pc (R22, R47, R118). -/
theorem step_pc_of_no_instruction {s s0 t : State} {tickDue : Bool} {rnd : Byte}
    (hi : StepIssued s tickDue rnd s0) (hs : s.halted = false)
    (hn : fetch s = none ∨ ∃ w e, fetch s = some w ∧ decodeWord w = .error e)
    (h : step s = .next t) : t.pc = s.pc := by
  obtain ⟨hh, hpc, -, hf⟩ := hi.fields
  rw [hi.step_eq] at h
  rcases hn with hn | ⟨w, e, hn, hd⟩
  · rw [serveStep_of_fetchRange _ _ (hh.trans hs) (hf.trans hn)] at h
    cases h; exact hpc
  · rw [serveStep_of_unknown _ _ (hh.trans hs) (hf.trans hn) hd] at h
    cases h; exact hpc

section
variable {s t : State} {x : RegIdx}

/-- RET goes to the popped entry plus 2, or has faulted (R77). -/
theorem execRet_pc (h : execRet s = .next t) (ht : t.halted = false) :
    ∃ k : Fin 16, s.sp.val = k.val + 1 ∧ t.pc = s.stack[k] + 2 := by
  unfold execRet at h
  rcases s.pop_cases with ⟨-, e⟩ | ⟨hsp, e⟩ <;> rw [e] at h <;> cases h
  · cases ht
  · exact ⟨⟨s.sp.val - 1, by omega⟩, (Nat.sub_add_cancel hsp).symm, rfl⟩

/-- CALL goes to its target, or has faulted (R79). -/
theorem execCall_pc {nnn : Word} (h : execCall nnn s = .next t) (ht : t.halted = false) : t.pc = nnn := by
  unfold execCall at h
  rcases s.push_cases s.pc with ⟨-, e⟩ | ⟨_, e⟩ <;> rw [e] at h <;> cases h
  · cases ht
  · rfl

/-- SKP skips where the key that V[X] names is pressed, or has faulted (R103). -/
theorem execSkp_pc (h : execSkp x s = .next t) (ht : t.halted = false) :
    ∃ k : Fin 16, (s.reg x).toNat = k.val ∧ t.pc = s.pc + if s.key[k] then 4 else 2 := by
  unfold execSkp at h
  split at h <;> cases h
  · rename_i hk
    obtain ⟨k, hx, rfl⟩ := keyOf_eq_some hk
    exact ⟨k, hx, rfl⟩
  · cases ht

/-- SKNP skips where the key that V[X] names is not pressed, or has faulted (R104). -/
theorem execSknp_pc (h : execSknp x s = .next t) (ht : t.halted = false) :
    ∃ k : Fin 16, (s.reg x).toNat = k.val ∧ t.pc = s.pc + if s.key[k] then 2 else 4 := by
  unfold execSknp at h
  split at h <;> cases h
  · rename_i hk
    obtain ⟨k, hx, rfl⟩ := keyOf_eq_some hk
    exact ⟨k, hx, by cases s.key[k] <;> rfl⟩
  · cases ht

/-- FX0A goes on with a key pressed and stalls with none (R105). -/
theorem execLdK_pc (h : execLdK x s = .next t) :
    t.pc = if (∃ k : Fin 16, s.key[k] = true) then s.pc + 2 else s.pc := by
  unfold execLdK at h
  split at h <;> cases h
  · rename_i k hk
    rw [if_pos ⟨k, ((lowestKey_eq_some _ _).1 hk).1⟩]; rfl
  · rename_i hk
    rw [if_neg (by simpa using (lowestKey_eq_none _).1 hk)]

end

/-- Settles O22: a fault leaves pc by `exec_pc_of_fault`, a Step without an instruction by
`step_pc_of_no_instruction`; each instruction that completes makes its own update. -/
theorem pcIsUpdatedAsListed : Obligations.PcIsUpdatedAsListed := by
  refine ⟨fun s s0 t tickDue rnd hi hs hn h => ?_, fun i s t hs h => ⟨exec_pc_of_fault hs h, fun ht => ?_⟩⟩
  · refine step_pc_of_no_instruction hi hs (hn.imp_left fun hpc => ?_) h
    rw [fetch_eq, if_neg (Nat.not_lt.2 hpc)]
  cases i
  case ret => exact execRet_pc h ht
  case call nnn => exact execCall_pc h ht
  case skp x => exact execSkp_pc h ht
  case sknp x => exact execSknp_pc h ht
  case ldK x => exact execLdK_pc h
  case jpV0 nnn => cases h; exact offsetTarget_toNat s nnn
  case seImm x nn | sneImm x nn => cases h; simp [State.reg]
  case seReg x y | sneReg x y => cases h; simp [State.reg]
  case drw | ldB | ldMemVx | ldVxMem =>
    cases h
    rw [whenInRange_of_running ht]; rfl
  all_goals cases h; rfl

/-! ### Transactions -/

theorem step_of_pending {s : State} {t : Txn} {rest : List Txn} (h : s.pending = t :: rest) :
    step s = serve t { s with pending := rest } := by
  simp [step, serveNext, h]

theorem onlyWrites_reply_pending (s : State) (r : Reply) (ts : List Txn) :
    OnlyWrites s { s with reply := r, pending := ts } [.reply, .pending] := by
  intro p hp
  cases p
  case reply | pending => simp at hp
  all_goals rfl

theorem onlyWrites_configuration (s : State) (legacy indexOvf : Bool) :
    OnlyWrites s { s with legacy := legacy, indexOvf := indexOvf } [.legacy, .indexOvf] := by
  intro p hp
  cases p
  case legacy | indexOvf => simp at hp
  all_goals rfl

theorem onlyWrites_drawFlag (s : State) (b : Bool) : OnlyWrites s { s with drawFlag := b } [.drawFlag] := by
  intro p hp
  cases p
  case drawFlag => simp at hp
  all_goals rfl

/-- No instruction writes configOpen. -/
theorem exec_configOpen {i : Instr} {s t : State} (h : exec i s = .next t) : t.configOpen = s.configOpen :=
  exec_onlyWrites h .configOpen (by cases i <;> simp [mayWrite, faultParts, bytesFrom, regsThrough])

/-- A Step of a running core closes SetConfig (R45). -/
theorem serveStep_closes_config {s t : State} {tickDue : Bool} {rnd : Byte} (hs : s.halted = false)
    (h : serveStep tickDue rnd s = .next t) : t.configOpen = false := by
  rcases serveStep_cases h with ⟨hh, -⟩ | ⟨-, -, rfl⟩ | ⟨w, e, -, -, -, rfl⟩ | ⟨w, i, u, -, -, -, he, rfl⟩
  · rw [hs] at hh; cases hh
  · rfl
  · rfl
  · exact exec_configOpen he

/-- Beside Reset and the Step no transaction opens or closes SetConfig (R45). -/
theorem serve_configOpen {x : Txn} {s t : State} (hstep : ∀ tickDue rnd, x ≠ .step tickDue rnd)
    (hreset : x ≠ .reset) (h : serve x s = .next t) : t.configOpen = s.configOpen := by
  cases x <;> simp only [serve] at h
  case reset => exact absurd rfl hreset
  case step tickDue rnd => exact absurd rfl (hstep tickDue rnd)
  case setConfig =>
    unfold serveSetConfig at h
    split at h <;> cases h
    rfl
  case load =>
    unfold serveLoad at h
    split at h <;> cases h <;> rfl
  case setKey =>
    unfold serveSetKey at h
    split at h <;> cases h
    rfl
  all_goals cases h; rfl

theorem serveSetConfig_of_open {s : State} (legacy indexOvf : Bool) (h : s.configOpen = true) :
    serveSetConfig legacy indexOvf s =
      .next { s with legacy := legacy, indexOvf := indexOvf, reply := .done } := by
  simp [serveSetConfig, h]

theorem serveSetConfig_of_closed {s : State} (legacy indexOvf : Bool) (h : s.configOpen = false) :
    serveSetConfig legacy indexOvf s = .refused .setConfigAfterFirstStep := by
  simp [serveSetConfig, h]

/-- Settles O29: a Reset opens, `serveStep_closes_config` closes, and `serve_configOpen` covers the rest. -/
theorem setConfigIsAcceptedOnlyBeforeTheFirstStep :
    Obligations.SetConfigIsAcceptedOnlyBeforeTheFirstStep := by
  refine ⟨fun s legacy indexOvf rest hp => ⟨fun ho => ?_, fun ho => ?_⟩,
    fun s t h => ⟨fun ⟨rest, hp⟩ => ?_, fun tickDue rnd s0 hi hs => ?_, fun hstep hreset => ?_⟩⟩
  · exact ⟨_, (step_of_pending hp).trans (serveSetConfig_of_open _ _ ho), rfl, rfl,
      (onlyWrites_configuration s _ _).trans (onlyWrites_reply_pending _ _ _)⟩
  · exact (step_of_pending hp).trans (serveSetConfig_of_closed _ _ ho)
  · rw [step_of_pending hp] at h
    cases h; rfl
  · rw [hi.step_eq] at h
    exact serveStep_closes_config (hi.fields.1.trans hs) h
  · rcases step_cases s with ⟨tickDue, rnd, s0, hi⟩ | ⟨x, rest, hp, hx, he⟩
    · exact absurd hi (hstep tickDue rnd s0)
    · rw [he] at h
      exact (serve_configOpen hx (fun e => hreset rest (e ▸ hp)) h :)

/-- Settles O32: each read writes its reply alone, and ClearDrawFlag the flag besides. -/
theorem hostReadsChangeNothing : Obligations.HostReadsChangeNothing := by
  refine ⟨fun s x y rest hp => ⟨_, step_of_pending hp, onlyWrites_reply_pending s _ _, ?_⟩,
    fun s rest hp => ⟨_, step_of_pending hp, onlyWrites_reply_pending s _ _, rfl⟩,
    fun s rest hp => ⟨_, step_of_pending hp, rfl,
      (onlyWrites_drawFlag s false).trans (onlyWrites_reply_pending _ _ _)⟩⟩
  exact ⟨Fin.ofNat 64 x, Fin.ofNat 32 y, rfl, rfl, rfl⟩

end Sys2Proof.Machine

/-! Memory (spec/20_memory.md): the fetch and its range check, and the Load transaction. -/

namespace Sys2Proof.Machine

/-! ### The fetch -/

theorem fetch_of_inRange {s : State} (h : s.pc.toNat + 1 < Config.memSize) :
    fetch s = some (wordOfBytes (s.mem.read s.pc.toNat) (s.mem.read (s.pc.toNat + 1))) := by
  rw [fetch_eq, if_pos h]

theorem fetch_of_outOfRange {s : State} (h : Config.memSize ≤ s.pc.toNat + 1) : fetch s = none := by
  rw [fetch_eq, if_neg (Nat.not_lt.2 h)]

/-- Settles O7: the fetched word as a number is `wordOfBytes_toNat`, and the Step that fetches none ends in the
state `raiseFault` leaves. -/
theorem fetchIsBigEndianAndRangeChecked : Obligations.FetchIsBigEndianAndRangeChecked := by
  refine ⟨fun s hpc => ⟨_, fetch_of_inRange hpc, wordOfBytes_toNat _ _⟩, fun s s0 tickDue rnd hi hs hpc => ?_⟩
  obtain ⟨hh, hpc0, -, hf⟩ := hi.fields
  have hstep : step s = .next (raiseFault .fetchRange s0.pc.toNat (begun s0 rnd)) :=
    hi.step_eq.trans (serveStep_of_fetchRange _ _ (hh.trans hs) (hf.trans (fetch_of_outOfRange hpc)))
  rw [hpc0] at hstep
  exact ⟨_, hstep, takesFault_raiseFault .fetchRange _ _⟩

/-! ### Load -/

/-- Byte k of a store of consecutive bytes is read back at a + k. -/
theorem Memory.read_writeList_add (m : Memory) (a : Nat) (bs : List Byte) {k : Nat} (hk : k < bs.length)
    (ha : a + k < Config.memSize) : (m.writeList a bs).read (a + k) = bs[k] := by
  simp [Memory.read_writeList, hk, ha]

theorem serveLoad_of_tooLarge (s : State) {bytes : List Byte} (h : bytes.length > Config.progMax) :
    serveLoad bytes s = .next { s with reply := .romTooLarge } := if_pos h

theorem serveLoad_of_fits (s : State) {bytes : List Byte} (h : ¬bytes.length > Config.progMax) :
    serveLoad bytes s =
      .next { s with mem := s.mem.writeList Config.progStart bytes, reply := .loaded } := if_neg h

/-- Settles O26: `serve` asks for no running core; a program that fits ends at MEM_SIZE or below, so that every
byte of it is stored. -/
theorem loadCopiesTheProgramOrChangesNothing : Obligations.LoadCopiesTheProgramOrChangesNothing := by
  intro s bytes rest hp
  have hserve : step s = serveLoad bytes { s with pending := rest } := step_of_pending hp
  by_cases hlen : bytes.length > 3584
  · refine ⟨_, hserve.trans (serveLoad_of_tooLarge _ hlen), ?_⟩
    rw [if_pos hlen]
    exact ⟨rfl, onlyWrites_reply_pending s _ _⟩
  · refine ⟨_, hserve.trans (serveLoad_of_fits _ hlen), ?_⟩
    rw [if_neg hlen]
    have hfits : ∀ k, k < bytes.length → 0x200 + k < 4096 := fun k hk => by omega
    exact ⟨rfl, fun k hk => s.mem.read_writeList_add 0x200 bytes hk (hfits k hk),
      (onlyWrites_writeList s 0x200 bytes).trans (onlyWrites_reply_pending _ _ _)⟩

end Sys2Proof.Machine

/-! Encoding (spec/30_encoding.md): decoding gives an encoded instruction back, and the bits decoding ignores. -/

namespace Sys2Proof

/-! ### Decoding an encoded instruction -/

/-- The word of a well-formed instruction decodes to it (R74): the dispatch of R66 reads the family and the
sub-opcode that the encoder packed, and an operand that fits its field comes back from it. -/
theorem decodeWord_encode {i : Instr} (h : i.wf = true) : decodeWord (encode i) = .ok i := by
  cases i
  case cls | ret => simp [encode, decodeWord, decodeFamily0]
  case jp | call | ldI | jpV0 => simp [encode, decodeWord, nnnField_packNNN _ _ h]
  case seImm | sneImm | ldImm | addImm | rnd | seReg | sneReg => simp [encode, decodeWord]
  case drw n => simp [encode, decodeWord, ofNat_rows_toNat n h, -BitVec.toNat_ofNat]
  case ldReg | orReg | andReg | xorReg | addReg | sub | shr | subn | shl =>
    simp [encode, decodeWord, decodeFamily8]
  case skp | sknp => simp [encode, decodeWord, decodeFamilyE]
  case ldVxDt | ldK | ldDtVx | ldStVx | addI | ldF | ldB | ldMemVx | ldVxMem =>
    simp [encode, decodeWord, decodeFamilyF]

/-- Exactly the two bytes of the word are consumed, whatever follows them (R61). -/
theorem decode_of_decodeWord {w : Word} {i : Instr} (h : decodeWord w = .ok i) (rest : List Byte) :
    decode (hiByte w :: loByte w :: rest) = .ok (i, rest) := by
  simp [decode, h, Except.map]

/-- Settles O1: the two bytes make the encoder's word again, and that word decodes to the instruction. -/
theorem decodeInvertsEncode : Obligations.DecodeInvertsEncode :=
  fun _ rest h => decode_of_decodeWord (decodeWord_encode h) rest

/-! ### The bits a word decodes by (R67) -/

/-- The bits of w that a dispatch level or an operand reads. -/
def careMask (w : Word) : Word :=
  if opField w = 0x0 then 0xF0FF else if opField w = 0x5 ∨ opField w = 0x9 then 0xFFF0 else 0xFFFF

section
variable {w : Word} {i : Instr} {op : Nibble}

theorem and_careMask_of_family0 (h : opField w = 0x0) : w &&& careMask w = packXNN 0x0 0 (nnField w) := by
  rw [careMask, if_pos h, and_maskOpNN, h]

theorem and_careMask_of_family5or9 (h : opField w = 0x5 ∨ opField w = 0x9) :
    w &&& careMask w = packXYN (opField w) (xField w) (yField w) 0 := by
  have h0 : opField w ≠ 0x0 := by rcases h with h | h <;> simp [h]
  rw [careMask, if_neg h0, if_pos h, and_maskOpXY]

theorem and_careMask_of_otherFamily (h0 : opField w ≠ 0x0) (h59 : ¬(opField w = 0x5 ∨ opField w = 0x9)) :
    w &&& careMask w = w := by
  rw [careMask, if_neg h0, if_neg h59]; exact BitVec.and_allOnes

/-! ### Decoding, family by family -/

theorem decodeWord_of_family0 (h : opField w = 0x0) : decodeWord w = decodeFamily0 w := by
  simp [decodeWord, h]

/-- Family 0x0 looks at NN alone. -/
theorem decodeFamily0_eq_ok :
    decodeFamily0 w = .ok i ↔ (nnField w = 0xE0 ∧ i = .cls) ∨ (nnField w = 0xEE ∧ i = .ret) := by
  unfold decodeFamily0
  split
  case h_1 hnn | h_2 hnn => simp [hnn, eq_comm]
  case h_3 hE0 hEE =>
    refine iff_of_false (by simp) ?_
    rintro (⟨hnn, -⟩ | ⟨hnn, -⟩)
    · exact hE0 hnn
    · exact hEE hnn

/-- Families 0x5 and 0x9 look at X and Y alone. -/
theorem decodeWord_packXYN_of_family5or9 (h : op = 0x5 ∨ op = 0x9) (x y : RegIdx) (n : Nibble) :
    decodeWord (packXYN op x y n) = .ok (if op = 0x5 then .seReg x y else .sneReg x y) := by
  rcases h with rfl | rfl <;> simp [decodeWord]

theorem wf_and_encode_of_decodeFamily0 (h : decodeFamily0 w = .ok i) :
    i.wf = true ∧ encode i = packXNN 0x0 0 (nnField w) := by
  rcases decodeFamily0_eq_ok.1 h with ⟨hnn, rfl⟩ | ⟨hnn, rfl⟩ <;> exact ⟨rfl, by rw [hnn]; rfl⟩

theorem wf_and_encode_of_decodeFamily8 (h : decodeFamily8 w = .ok i) :
    i.wf = true ∧ encode i = packXYN 0x8 (xField w) (yField w) (nField w) := by
  unfold decodeFamily8 at h
  split at h <;> cases h <;> exact ⟨rfl, by simp [encode, *]⟩

theorem wf_and_encode_of_decodeFamilyE (h : decodeFamilyE w = .ok i) :
    i.wf = true ∧ encode i = packXNN 0xE (xField w) (nnField w) := by
  unfold decodeFamilyE at h
  split at h <;> cases h <;> exact ⟨rfl, by simp [encode, *]⟩

theorem wf_and_encode_of_decodeFamilyF (h : decodeFamilyF w = .ok i) :
    i.wf = true ∧ encode i = packXNN 0xF (xField w) (nnField w) := by
  unfold decodeFamilyF at h
  split at h <;> cases h <;> exact ⟨rfl, by simp [encode, *]⟩

/-! ### A word packed again from its own fields -/

theorem packXYN_of_opField (h : opField w = op) : packXYN op (xField w) (yField w) (nField w) = w := by
  rw [← h, ← word_eq_packXYN]

theorem packXNN_of_opField (h : opField w = op) : packXNN op (xField w) (nnField w) = w := by
  rw [← h, ← word_eq_packXNN]

theorem packNNN_of_opField (h : opField w = op) : packNNN op (nnnField w) = w := by
  apply BitVec.eq_of_toNat_eq
  rw [← h, packNNN_toNat, opField_toNat, nnnField_toNat]; omega

theorem addrFits_nnnField (w : Word) : addrFits (nnnField w) = true := by
  have := nnnField_toNat w
  simp only [addrFits, decide_eq_true_eq]; omega

theorem rowsFit_nField (w : Word) : rowsFit (nField w).toNat = true := by
  have := nField_toNat w
  simp only [rowsFit, decide_eq_true_eq]; omega

/-- In every family but 0x0, 0x5 and 0x9 the dispatch and the operands read the whole word, so that the decoded
instruction encodes to the word itself. -/
theorem wf_and_encode_of_otherFamily (h0 : opField w ≠ 0x0) (h59 : ¬(opField w = 0x5 ∨ opField w = 0x9))
    (h : decodeWord w = .ok i) : i.wf = true ∧ encode i = w := by
  unfold decodeWord at h
  split at h
  case h_1 hop => exact absurd hop h0
  case h_6 hop => exact absurd (.inl hop) h59
  case h_10 hop => exact absurd (.inr hop) h59
  case h_2 hop | h_3 hop | h_11 hop | h_12 hop =>
    cases h; exact ⟨addrFits_nnnField w, packNNN_of_opField hop⟩
  case h_4 hop | h_5 hop | h_7 hop | h_8 hop | h_13 hop =>
    cases h; exact ⟨rfl, packXNN_of_opField hop⟩
  case h_9 hop => rw [← packXYN_of_opField hop]; exact wf_and_encode_of_decodeFamily8 h
  case h_14 hop =>
    cases h
    refine ⟨rowsFit_nField w, ?_⟩
    rw [encode, BitVec.ofNat_toNat, BitVec.setWidth_eq]
    exact packXYN_of_opField hop
  case h_15 hop => rw [← packXNN_of_opField hop]; exact wf_and_encode_of_decodeFamilyE h
  case h_16 hop => rw [← packXNN_of_opField hop]; exact wf_and_encode_of_decodeFamilyF h
  case h_17 => cases h

/-! ### Don't-care bits -/

/-- Clearing the don't-care bits changes no decoding. -/
theorem decodeWord_and_careMask : decodeWord w = .ok i ↔ decodeWord (w &&& careMask w) = .ok i := by
  by_cases h0 : opField w = 0x0
  · rw [and_careMask_of_family0 h0, decodeWord_of_family0 h0, decodeWord_of_family0 (opField_packXNN ..),
      decodeFamily0_eq_ok, decodeFamily0_eq_ok, nnField_packXNN]
  by_cases h59 : opField w = 0x5 ∨ opField w = 0x9
  · rw [and_careMask_of_family5or9 h59, decodeWord_packXYN_of_family5or9 h59]
    conv_lhs => rw [word_eq_packXYN w, decodeWord_packXYN_of_family5or9 h59]
  · rw [and_careMask_of_otherFamily h0 h59]

/-- The decoded instruction keeps every bit that is cared for. -/
theorem wf_and_encode_of_decodeWord (h : decodeWord w = .ok i) :
    i.wf = true ∧ encode i = w &&& careMask w := by
  by_cases h0 : opField w = 0x0
  · rw [and_careMask_of_family0 h0]
    exact wf_and_encode_of_decodeFamily0 (decodeWord_of_family0 h0 ▸ h)
  by_cases h59 : opField w = 0x5 ∨ opField w = 0x9
  · rw [word_eq_packXYN w, decodeWord_packXYN_of_family5or9 h59] at h
    rw [and_careMask_of_family5or9 h59]
    cases h
    rcases h59 with hop | hop <;> rw [hop] <;> exact ⟨rfl, rfl⟩
  · rw [and_careMask_of_otherFamily h0 h59]
    exact wf_and_encode_of_otherFamily h0 h59 h

end

/-- Settles O4: the mask is `careMask`, and the families with don't-care bits decode by the rest alone. -/
theorem dontCareBitsAreIgnoredAndNoOthers : Obligations.DontCareBitsAreIgnoredAndNoOthers :=
  fun _ _ => ⟨decodeWord_and_careMask, wf_and_encode_of_decodeWord⟩

end Sys2Proof

/-! Control transfer (spec/40_flow.md): CLS, RET, CALL, JP and the four skips on registers and immediates. -/

namespace Sys2Proof.Machine

/-! ### The stack, entry by entry -/

section
variable {s s' : State} {a : Word} {k : Fin 16}

/-- With k entries in use a push goes through and fills entry k (R25). -/
theorem State.push_of_sp_eq (h : s.sp.val = k.val) (a : Word) :
    ∃ s', s.push a = some s' ∧ s'.stack[k] = a ∧ s'.sp.val = k.val + 1 ∧ OnlyWrites s s' [.stack k, .sp] := by
  rcases s.push_cases a with ⟨hfull, -⟩ | ⟨_, e⟩
  · have hsp : s.sp.val = 16 := congrArg Fin.val hfull
    omega
  · have hslot : Fin.ofNat 16 s.sp.val = k := by rw [h, Fin.ofNat_val_eq_self]
    exact ⟨_, e, by simp [h], by simp [h], hslot ▸ onlyWrites_push e⟩

theorem State.push_of_full (h : s.sp.val = 16) (a : Word) : s.push a = none := by
  rcases s.push_cases a with ⟨-, e⟩ | ⟨hlt, -⟩
  · exact e
  · omega

/-- With k + 1 entries in use a pop goes through and gives entry k (R25). -/
theorem State.pop_of_sp_eq (h : s.sp.val = k.val + 1) :
    ∃ s', s.pop = some (s.stack[k], s') ∧ s'.sp.val = k.val ∧ OnlyWrites s s' [.sp] := by
  rcases s.pop_cases with ⟨hempty, -⟩ | ⟨_, e⟩
  · simp [hempty] at h
  · simp only [h, Nat.add_sub_cancel] at e
    exact ⟨_, e, rfl, onlyWrites_pop e⟩

theorem State.pop_of_empty (h : s.sp.val = 0) : s.pop = none := by
  rcases s.pop_cases with ⟨-, e⟩ | ⟨hpos, -⟩
  · exact e
  · omega

/-! ### RET and CALL -/

theorem exec_ret_of_pop (h : s.pop = some (a, s')) : exec .ret s = .next (s'.setPc (a + 2)) := by
  simp only [exec, execRet, h]

theorem exec_ret_of_empty (h : s.pop = none) :
    exec .ret s = .next (raiseFault .stackUnderflow s.pc.toNat s) := by
  simp only [exec, execRet, h]

theorem exec_call_of_push {nnn : Word} (h : s.push s.pc = some s') :
    exec (.call nnn) s = .next (s'.setPc nnn) := by
  simp only [exec, execCall, h]

theorem exec_call_of_full {nnn : Word} (h : s.push s.pc = none) :
    exec (.call nnn) s = .next (raiseFault .stackOverflow s.pc.toNat s) := by
  simp only [exec, execCall, h]

end

/-- Settles O36: RET writes what the pop writes, and pc. -/
theorem retPopsTheReturnAddress : Obligations.RetPopsTheReturnAddress := by
  refine fun s => ⟨fun k hk => ?_, fun hempty => ?_⟩
  · obtain ⟨s', hpop, hsp, hw⟩ := State.pop_of_sp_eq hk
    exact ⟨_, exec_ret_of_pop hpop, hsp, rfl, hw.trans (onlyWrites_setPc _ _)⟩
  · exact ⟨_, exec_ret_of_empty (State.pop_of_empty hempty), takesFault_raiseFault .stackUnderflow _ _⟩

/-- Settles O37: CALL writes what the push writes, and pc. -/
theorem callPushesItsAddress : Obligations.CallPushesItsAddress := by
  refine fun nnn s => ⟨fun k hk => ?_, fun hfull => ?_⟩
  · obtain ⟨s', hpush, hentry, hsp, hw⟩ := State.push_of_sp_eq hk s.pc
    exact ⟨_, exec_call_of_push hpush, hentry, hsp, rfl, hw.trans (onlyWrites_setPc _ _)⟩
  · exact ⟨_, exec_call_of_full (State.push_of_full hfull _), takesFault_raiseFault .stackOverflow _ _⟩

/-! ### CLS and JP -/

/-- Settles O35: the new screen is `blankScreen`. -/
theorem clsClearsTheScreen : Obligations.ClsClearsTheScreen :=
  fun s => ⟨_, rfl, pixelAt_blankScreen, rfl, rfl,
    (onlyWrites_setScreen s blankScreen).trans (onlyWrites_advance _)⟩

/-- Settles O39: JP is `setPc` alone. -/
theorem jpGoesToItsTarget : Obligations.JpGoesToItsTarget :=
  fun nnn s => ⟨_, rfl, rfl, onlyWrites_setPc s nnn⟩

/-! ### The skips -/

/-- A skip on a comparison c, true exactly where p holds and false exactly where q does, writes pc alone (R22). -/
theorem skip_follows {i : Instr} {s : State} {c : Bool} {p q : Prop} (he : exec i s = .next (s.skipIf c))
    (hp : c = true ↔ p) (hq : c = false ↔ q) :
    ∃ t, exec i s = .next t ∧ OnlyWrites s t [.pc] ∧ (p → t.pc = s.pc + 4) ∧ (q → t.pc = s.pc + 2) :=
  ⟨_, he, onlyWrites_skipIf s c, fun h => by simp [hp.2 h], fun h => by simp [hq.2 h]⟩

/-- Settles O41: each skip is `skipIf` of its comparison. -/
theorem skipsFollowTheirCondition : Obligations.SkipsFollowTheirCondition :=
  fun _ _ _ _ =>
    ⟨skip_follows rfl beq_iff_eq beq_eq_false_iff_ne, skip_follows rfl bne_iff_ne bne_eq_false_iff_eq,
      skip_follows rfl beq_iff_eq beq_eq_false_iff_ne, skip_follows rfl bne_iff_ne bne_eq_false_iff_eq⟩

end Sys2Proof.Machine

/-! The ALU (spec/41_alu.md): immediates, register-register operations, and the random byte. -/

namespace Sys2Proof.Machine

/-! ### The two shapes of an ALU instruction: a register alone, or a register and VF -/

section
variable {i : Instr} {s : State} {x : RegIdx} {b f : Byte}

/-- An instruction that sets V[X] and advances writes nothing else; VF is one of the others unless X is F. -/
theorem writes_register (he : exec i s = .next (s.setV x b).advance) :
    ∃ t, exec i s = .next t ∧ t.v[x] = b ∧ t.pc = s.pc + 2 ∧ OnlyWrites s t [.reg x, .pc] :=
  ⟨_, he, by simp, rfl, (onlyWrites_setV s x b).trans (onlyWrites_advance _)⟩

theorem writes_register_toNat {n : Nat} (he : exec i s = .next (s.setV x b).advance) (hn : b.toNat = n) :
    ∃ t, exec i s = .next t ∧ t.v[x].toNat = n ∧ t.pc = s.pc + 2 ∧ OnlyWrites s t [.reg x, .pc] := by
  obtain ⟨t, ht, hv, hrest⟩ := writes_register he
  exact ⟨t, ht, by rw [hv, hn], hrest⟩

theorem writes_register_bits {bit : Nat → Bool} (he : exec i s = .next (s.setV x b).advance)
    (hbit : ∀ k, b.getLsbD k = bit k) :
    ∃ t, exec i s = .next t ∧ t.pc = s.pc + 2 ∧ OnlyWrites s t [.reg x, .pc] ∧
      ∀ k < 8, t.v[x].getLsbD k = bit k := by
  obtain ⟨t, ht, hv, hpc, hw⟩ := writes_register he
  exact ⟨t, ht, hpc, hw, fun k _ => by rw [hv, hbit]⟩

/-- An instruction that sets VF and then V[X] leaves the result in V[X] even where X is F, and the flag in VF
otherwise (R88). -/
theorem writes_result_and_flag {n m : Nat} (he : exec i s = .next (s.setFlagThenResult x f b).advance)
    (hn : b.toNat = n) (hm : f.toNat = m) :
    ∃ t, exec i s = .next t ∧ t.v[x].toNat = n ∧ (x ≠ 15 → t.v[(15 : RegIdx)].toNat = m) ∧
      t.pc = s.pc + 2 ∧ OnlyWrites s t [.reg x, .reg 15, .pc] := by
  refine ⟨_, he, ?_, fun hx => ?_, rfl, ?_⟩
  · rw [State.advance_v, State.reg_setFlagThenResult, if_pos rfl, hn]
  · rw [State.advance_v, State.reg_setFlagThenResult, if_neg hx.symm, if_pos rfl, hm]
  · exact ((onlyWrites_setFlagThenResult s x f b).trans (onlyWrites_advance _)).mono (by simp)

end

/-! ### Flags and differences as numbers -/

theorem flagByte_toNat (c : Bool) : (flagByte c).toNat = if c then 1 else 0 := by
  cases c <;> rfl

theorem carryFlag_toNat (a b : Byte) :
    (carryFlag a b).toNat = if a.toNat + b.toNat > 255 then 1 else 0 := by
  simp [carryFlag, flagByte_toNat]

theorem noBorrowFlag_toNat (a b : Byte) : (noBorrowFlag a b).toNat = if a.toNat < b.toNat then 0 else 1 := by
  by_cases h : a.toNat < b.toNat <;> simp [noBorrowFlag, flagByte_toNat, h]

theorem byte_sub_toNat (a b : Byte) : (a - b).toNat = (a.toNat + 256 - b.toNat) % 256 := by
  rw [BitVec.toNat_sub]; omega

/-! ### Immediates and register-register operations -/

/-- Settles O42: each of the three sets V[X] and advances. -/
theorem immediatesAndAssignWriteTheirRegister : Obligations.ImmediatesAndAssignWriteTheirRegister :=
  fun _ _ _ _ =>
    ⟨writes_register rfl, writes_register_toNat rfl (BitVec.toNat_add _ _), writes_register rfl⟩

/-- Settles O43: each of the three sets V[X] to the bitwise operation of the operands and advances. -/
theorem bitwiseOperationsWorkBitByBit : Obligations.BitwiseOperationsWorkBitByBit :=
  fun _ _ _ =>
    ⟨writes_register_bits rfl fun _ => BitVec.getLsbD_or, writes_register_bits rfl fun _ => BitVec.getLsbD_and,
      writes_register_bits rfl fun _ => BitVec.getLsbD_xor⟩

/-- Settles O44: the flag is `carryFlag` of the operands, the result their sum. -/
theorem addWritesSumAndCarry : Obligations.AddWritesSumAndCarry :=
  fun _ _ _ => writes_result_and_flag rfl (BitVec.toNat_add _ _) (carryFlag_toNat _ _)

/-- Settles O45: 8XY5 and 8XY7 differ in which operand is the minuend alone. -/
theorem subtractsWriteDifferenceAndBorrow : Obligations.SubtractsWriteDifferenceAndBorrow :=
  fun _ _ _ =>
    ⟨writes_result_and_flag rfl (byte_sub_toNat _ _) (noBorrowFlag_toNat _ _),
      writes_result_and_flag rfl (byte_sub_toNat _ _) (noBorrowFlag_toNat _ _)⟩

/-! ### The random byte -/

/-- A Step that decodes CXNN masks its own input rnd (R100). -/
theorem step_rnd_reg {s s0 : State} {tickDue : Bool} {rnd nn : Byte} {x : RegIdx} {w : Word}
    (hi : StepIssued s tickDue rnd s0) (hs : s.halted = false) (hw : fetch s = some w)
    (hd : decodeWord w = .ok (.rnd x nn)) : ∃ t, step s = .next t ∧ t.v[x] = rnd &&& nn := by
  obtain ⟨t, he, hv, -⟩ := writes_register (s := begun s0 rnd) (i := .rnd x nn) rfl
  obtain ⟨hh, -, -, hf⟩ := hi.fields
  exact ⟨_, hi.step_eq.trans (serveStep_of_exec _ _ (hh.trans hs) (hf.trans hw) hd he), hv⟩

/-- The state with another random byte. -/
def State.withRnd (s : State) (rnd : Byte) : State := { s with rnd := rnd }

section
variable (s : State) (rnd : Byte)

theorem State.keyOf_withRnd (x : RegIdx) : (s.withRnd rnd).keyOf x = s.keyOf x := rfl

theorem State.pc_withRnd : (s.withRnd rnd).pc = s.pc := rfl

theorem State.key_withRnd : (s.withRnd rnd).key = s.key := rfl

theorem State.pop_withRnd :
    (s.withRnd rnd).pop = s.pop.map fun p => (p.1, p.2.withRnd rnd) := by
  by_cases h : 0 < s.sp.val <;> simp [State.pop, State.withRnd, h]

theorem State.push_withRnd (a : Word) :
    (s.withRnd rnd).push a = (s.push a).map (State.withRnd · rnd) := by
  by_cases h : s.sp.val < 16 <;> simp [State.push, State.withRnd, h]

end

theorem whenInRange_withRnd {base count : Nat} {s k k' : State} {rnd : Byte} (hk : k' = k.withRnd rnd) :
    whenInRange base count (s.withRnd rnd) k' = (whenInRange base count s k).withRnd rnd := by
  subst hk
  unfold whenInRange
  split <;> rfl

/-- An instruction other than CXNN runs alike with another rnd (R100): a range check, the stack and the key tests
branch on other parts, and the rest do not branch. -/
theorem exec_withRnd {i : Instr} {s t : State} (rnd : Byte) (hi : ∀ x nn, i ≠ .rnd x nn)
    (h : exec i s = .next t) : exec i (s.withRnd rnd) = .next (t.withRnd rnd) := by
  cases i
  case rnd x nn => exact absurd rfl (hi x nn)
  case drw | ldB | ldMemVx | ldVxMem =>
    cases h
    exact congrArg Host.Outcome.next (whenInRange_withRnd rfl)
  case ret =>
    rcases s.pop_cases with ⟨-, e⟩ | ⟨_, e⟩ <;>
      simp only [exec, execRet, State.pop_withRnd, e, Option.map] at h ⊢ <;> cases h <;> rfl
  case call =>
    rcases s.push_cases s.pc with ⟨-, e⟩ | ⟨_, e⟩ <;>
      simp only [exec, execCall, State.pc_withRnd, State.push_withRnd, e, Option.map] at h ⊢ <;> cases h <;> rfl
  case skp x | sknp x =>
    cases hk : s.keyOf x <;>
      simp only [exec, execSkp, execSknp, State.keyOf_withRnd, hk] at h ⊢ <;> cases h <;> rfl
  case ldK x =>
    cases hk : lowestKey s.key <;> simp only [exec, execLdK, State.key_withRnd, hk] at h ⊢ <;> cases h <;> rfl
  all_goals cases h; rfl

/-- Settles O47: the effect is `writes_register_bits`, along a Step `step_rnd_reg`; the others ignore rnd by
`exec_withRnd`. -/
theorem rndMasksTheStepsRandomByte : Obligations.RndMasksTheStepsRandomByte := by
  refine ⟨fun x nn s => ?_, fun _ _ _ _ _ _ _ => step_rnd_reg, fun _ _ _ rnd => exec_withRnd rnd⟩
  obtain ⟨t, he, hpc, hw, hbits⟩ :=
    writes_register_bits (i := .rnd x nn) (s := s) rfl fun _ => BitVec.getLsbD_and
  exact ⟨t, he, hbits, hpc, hw⟩

end Sys2Proof.Machine

/-! Input (spec/42_display_input.md): the latch and its one writer, the two key skips, and the wait for a key. -/

namespace Sys2Proof.Machine

/-! ### The latch (R33, R106) -/

/-- The latch with one key pressed or released. -/
def State.setKey (s : State) (k : Fin 16) (pressed : Bool) : State := { s with key := s.key.set k pressed }

theorem State.key_setKey_same (s : State) (k : Fin 16) (pressed : Bool) : (s.setKey k pressed).key[k] = pressed := by
  simp [State.setKey]

theorem State.key_setKey_of_ne (s : State) {k j : Fin 16} (pressed : Bool) (h : j ≠ k) :
    (s.setKey k pressed).key[j] = s.key[j] := by
  simp [State.setKey, Fin.val_ne_of_ne h.symm]

theorem onlyWrites_setKey (s : State) (k : Fin 16) (pressed : Bool) :
    OnlyWrites s (s.setKey k pressed) [.key k] := by
  intro p hp
  cases p
  case key j => exact s.key_setKey_of_ne pressed (by simpa using hp)
  all_goals rfl

theorem serveSetKey_of_index (s : State) (k : Fin 16) (pressed : Bool) :
    serveSetKey k.val pressed s = .next { s.setKey k pressed with reply := .done } := dif_pos k.isLt

theorem serveSetKey_of_above (s : State) {k : Nat} (pressed : Bool) (h : 15 < k) :
    serveSetKey k pressed s = .refused .setKeyOutOfRange := dif_neg (Nat.not_lt.2 h)

/-- No instruction writes the latch. -/
theorem exec_key {i : Instr} {s t : State} (h : exec i s = .next t) (k : Fin 16) : t.key[k] = s.key[k] :=
  exec_onlyWrites h (.key k) (by cases i <;> simp [mayWrite, faultParts, bytesFrom, regsThrough])

/-- Settles O30: an index in range is served by `setKey`, one above is refused, and `exec_key` covers the
instructions. -/
theorem setKeyWritesOneLatchBit : Obligations.SetKeyWritesOneLatchBit := by
  refine ⟨fun s k pressed rest hp => ⟨?_, fun hk => ?_⟩, fun _ _ _ => exec_key⟩
  · rintro j rfl
    exact ⟨_, (step_of_pending hp).trans (serveSetKey_of_index _ j pressed), s.key_setKey_same j pressed,
      (onlyWrites_setKey s j pressed).trans (onlyWrites_reply_pending _ _ _)⟩
  · exact (step_of_pending hp).trans (serveSetKey_of_above _ pressed hk)

/-! ### SKP and SKNP -/

section
variable {s : State} {x : RegIdx}

theorem State.keyOf_of_index {k : Fin 16} (h : s.v[x].toNat = k.val) : s.keyOf x = some s.key[k] := by
  have hlt : (s.reg x).toNat < 16 := h ▸ k.isLt
  exact (dif_pos hlt).trans (congrArg some (getElem_congr_idx h))

theorem State.keyOf_of_above (h : 15 < s.v[x].toNat) : s.keyOf x = none := dif_neg (Nat.not_lt.2 h)

theorem exec_skp_of_key {pressed : Bool} (h : s.keyOf x = some pressed) :
    exec (.skp x) s = .next (s.skipIf pressed) := by
  simp only [exec, execSkp, h]

theorem exec_sknp_of_key {pressed : Bool} (h : s.keyOf x = some pressed) :
    exec (.sknp x) s = .next (s.skipIf !pressed) := by
  simp only [exec, execSknp, h]

theorem exec_skp_of_no_key (h : s.keyOf x = none) :
    exec (.skp x) s = .next (raiseFault .keyRange s.v[x].toNat s) := by
  simp only [exec, execSkp, h, State.reg]

theorem exec_sknp_of_no_key (h : s.keyOf x = none) :
    exec (.sknp x) s = .next (raiseFault .keyRange s.v[x].toNat s) := by
  simp only [exec, execSknp, h, State.reg]

end

/-- Settles O50: SKP is `skipIf` of the latch bit and SKNP of its negation, where V[X] names a key. -/
theorem keySkipsTestTheLatch : Obligations.KeySkipsTestTheLatch := by
  refine fun x s => ⟨fun k hk => ?_, fun habove => ?_⟩
  · have hkey := State.keyOf_of_index hk
    exact ⟨skip_follows (exec_skp_of_key hkey) Iff.rfl Iff.rfl,
      skip_follows (exec_sknp_of_key hkey) (by simp) (by simp)⟩
  · have hnone := State.keyOf_of_above habove
    exact ⟨⟨_, exec_skp_of_no_key hnone, takesFault_raiseFault .keyRange _ _⟩,
      ⟨_, exec_sknp_of_no_key hnone, takesFault_raiseFault .keyRange _ _⟩⟩

/-! ### LD Vx, K -/

section
variable {s : State} {x : RegIdx}

theorem exec_ldK_of_lowestKey {k : RegIdx} (h : lowestKey s.key = some k) :
    exec (.ldK x) s = .next (s.setV x (BitVec.ofNat 8 k.val)).advance := by
  simp only [exec, execLdK, h]

theorem exec_ldK_of_no_key (h : lowestKey s.key = none) : exec (.ldK x) s = .next s := by
  simp only [exec, execLdK, h]

end

theorem keyByte_toNat (k : Fin 16) : (BitVec.ofNat 8 k.val).toNat = k.val := by
  rw [BitVec.toNat_ofNat]; omega

/-- Settles O51: `lowestKey` is the key pressed with no lower one, and none exactly where no key is pressed. -/
theorem waitForKeyTakesTheLowestKey : Obligations.WaitForKeyTakesTheLowestKey := by
  refine fun x s => ⟨fun k hk hlow => ?_, fun hnone => ?_⟩
  · have hlowest := (lowestKey_eq_some s.key k).2 ⟨hk, hlow⟩
    exact writes_register_toNat (exec_ldK_of_lowestKey hlowest) (keyByte_toNat k)
  · exact exec_ldK_of_no_key ((lowestKey_eq_none s.key).2 hnone)

end Sys2Proof.Machine

/-! The index register, the timers and the memory transfers (spec/43_index_timer_memory.md): FX07, FX15, FX18, FX1E,
FX29, FX33, FX55 and FX65. -/

namespace Sys2Proof.Machine

/-! ### The index register -/

theorem glyphAddr_toNat (s : State) (x : RegIdx) : (s.glyphAddr x).toNat = s.v[x].toNat * 5 := by
  have hlt := s.v[x].isLt
  have hfive : (5 : Word).toNat = 5 := rfl
  rw [State.glyphAddr, State.reg, BitVec.toNat_mul, zext16_toNat, hfive]
  omega

/-- Settles O54: I becomes `glyphAddr`. -/
theorem ldFPointsAtTheGlyph : Obligations.LdFPointsAtTheGlyph :=
  fun x s => ⟨_, rfl, glyphAddr_toNat s x, rfl, (onlyWrites_setI s _).trans (onlyWrites_advance _)⟩

theorem index_add_register_toNat (s : State) (x : RegIdx) :
    (s.i + zext16 (s.reg x)).toNat = (s.i.toNat + s.v[x].toNat) % 65536 := by
  rw [BitVec.toNat_add, zext16_toNat, State.reg]

theorem indexFlag_toNat (sum : Nat) : (indexFlag sum).toNat = if sum > 0xFFF then 1 else 0 := by
  simp [indexFlag, flagByte_toNat]

/-- With INDEX_OVF_FLAG FX1E writes the flag of the exact sum to VF (R111). -/
theorem exec_addI_of_indexOvf {s : State} (x : RegIdx) (h : s.indexOvf = true) :
    exec (.addI x) s =
      .next ((s.setV 15 (indexFlag (s.indexAddr (s.reg x).toNat))).setI (s.i + zext16 (s.reg x))).advance := by
  simp only [exec, execAddI, h, if_true]

/-- Without INDEX_OVF_FLAG FX1E gives VF its own value (R111). -/
theorem exec_addI_of_not_indexOvf {s : State} (x : RegIdx) (h : s.indexOvf = false) :
    exec (.addI x) s = .next ((s.setV 15 (s.reg 15)).setI (s.i + zext16 (s.reg x))).advance := by
  simp only [exec, execAddI, h, Bool.false_eq_true, if_false]

/-- Settles O56: the toggle decides what VF receives; a register given its own value is not written. -/
theorem addIWrapsAndFlagsWhenConfigured : Obligations.AddIWrapsAndFlagsWhenConfigured := by
  intro x s
  cases hovf : s.indexOvf with
  | true =>
    refine ⟨_, exec_addI_of_indexOvf x hovf, index_add_register_toNat s x, rfl, fun _ => ⟨?_, ?_⟩, nofun⟩
    · rw [State.advance_v, State.setI_v, State.reg_setV, if_pos rfl]
      exact indexFlag_toNat _
    · exact (((onlyWrites_setV s 15 _).trans (onlyWrites_setI _ _)).trans (onlyWrites_advance _)).mono (by simp)
  | false =>
    exact ⟨_, exec_addI_of_not_indexOvf x hovf, index_add_register_toNat s x, rfl, nofun, fun _ =>
      ((onlyWrites_setV_self s 15).trans (onlyWrites_setI _ _)).trans (onlyWrites_advance _)⟩

/-! ### The timers -/

/-- Settles O55: each of the three is one named update and the advance; `soundActive` tests the new ST. -/
theorem timersAreReadAndSet : Obligations.TimersAreReadAndSet :=
  fun _ s =>
    ⟨writes_register rfl,
      ⟨_, rfl, rfl, rfl, (onlyWrites_setDt s _).trans (onlyWrites_advance _)⟩,
      ⟨_, rfl, rfl, rfl, rfl, (onlyWrites_setSt s _).trans (onlyWrites_advance _)⟩⟩

/-! ### The range check of a transfer of the n + 1 bytes from I (R48, R52) -/

section
variable {i : Instr} {s k : State} {n : Nat}

theorem exec_transfer_of_inRange (he : exec i s = .next (whenInRange (s.indexAddr 0) (n + 1) s k))
    (h : s.indexAddr n < 4096) : exec i s = .next k := by
  rcases whenInRange_cases (s.indexAddr 0) (n + 1) s k with ⟨-, e⟩ | ⟨hout, -, -⟩
  · rw [he, e]
  · simp only [State.indexAddr, Config.memSize] at h hout
    omega

theorem exec_transfer_of_outOfRange (he : exec i s = .next (whenInRange (s.indexAddr 0) (n + 1) s k))
    (h : 4096 ≤ s.indexAddr n) :
    ∃ t, exec i s = .next t ∧ TakesFault 4 .dataRange (max (s.indexAddr 0) 4096) s t := by
  rcases whenInRange_cases (s.indexAddr 0) (n + 1) s k with ⟨hin, -⟩ | ⟨-, -, e⟩
  · simp only [State.indexAddr, Config.memSize] at h hin
    omega
  · exact ⟨_, by rw [he, e], takesFault_raiseFault .dataRange _ s⟩

end

/-! ### Storing at I -/

/-- Byte k stored from I upward is read back at I + k. -/
theorem read_writeList_indexAddr {s : State} {n k : Nat} (hn : s.indexAddr n < 4096) (hk : k ≤ n)
    {bs : List Byte} (hlen : k < bs.length) :
    (s.mem.writeList (s.indexAddr 0) bs).read (s.indexAddr k) = bs[k] :=
  s.mem.read_writeList_add (s.indexAddr 0) bs hlen (lt_of_le_of_lt (Nat.add_le_add_left hk _) hn)

theorem bcdDigits_toNat (b : Byte) :
    (bcdDigits b).map BitVec.toNat = [b.toNat / 100, b.toNat / 10 % 10, b.toNat % 10] := by
  simp [bcdDigits]; omega

/-- After a store of the digits of b at I, the byte at I + k is digit k, hundreds first. -/
theorem read_bcdDigits_toNat {s : State} (hin : s.indexAddr 2 < 4096) (b : Byte) {k : Nat} (hk : k < 3) :
    ((s.mem.writeList (s.indexAddr 0) (bcdDigits b)).read (s.indexAddr k)).toNat =
      [b.toNat / 100, b.toNat / 10 % 10, b.toNat % 10][k] := by
  have hlen : k < (bcdDigits b).length := hk
  rw [read_writeList_indexAddr hin (Nat.le_of_lt_succ hk) hlen]
  simp only [← bcdDigits_toNat, List.getElem_map]

/-- Settles O57: the bytes stored are `bcdDigits` of V[X]. -/
theorem bcdStoresThreeDigits : Obligations.BcdStoresThreeDigits := by
  intro x s
  refine ⟨fun hin => ?_, exec_transfer_of_outOfRange rfl⟩
  have hdigit {k : Nat} (hk : k < 3) := read_bcdDigits_toNat hin (s.reg x) hk
  exact ⟨_, exec_transfer_of_inRange rfl hin, hdigit (k := 0) (by decide), hdigit (k := 1) (by decide),
    hdigit (k := 2) (by decide), rfl,
    (onlyWrites_writeList s _ (bcdDigits (s.reg x))).trans (onlyWrites_advance _)⟩

/-! ### The block transfers -/

/-- A block of x + 1 bytes that ends in memory leaves I far from its wrap. -/
theorem index_after_block_toNat {s : State} {x : RegIdx} (h : s.indexAddr x.val < 4096) :
    (s.i + BitVec.ofNat 16 (x.val + 1)).toNat = s.i.toNat + x.val + 1 := by
  simp only [State.indexAddr] at h
  rw [BitVec.toNat_add, BitVec.toNat_ofNat]
  omega

theorem length_regsUpTo (s : State) (x : RegIdx) : (s.regsUpTo x).length = x.val + 1 := by
  simp [State.regsUpTo]

theorem getElem_regsUpTo (s : State) (x k : RegIdx) (h : k.val < (s.regsUpTo x).length) :
    (s.regsUpTo x)[k.val] = s.v[k] := by
  simp [State.regsUpTo]

theorem length_bytesAtIndex (s : State) (n : Nat) : (s.bytesAtIndex n).length = n := by
  simp [State.bytesAtIndex]

theorem getElem_bytesAtIndex (s : State) {n k : Nat} (h : k < (s.bytesAtIndex n).length) :
    (s.bytesAtIndex n)[k] = s.mem.read (s.indexAddr k) := by
  simp [State.bytesAtIndex, State.readAtIndex]

/-- Settles O58: the bytes stored are `regsUpTo`. -/
theorem blockStoreWritesRegistersAndAdvancesIndex : Obligations.BlockStoreWritesRegistersAndAdvancesIndex := by
  intro x s
  refine ⟨fun hin => ?_, exec_transfer_of_outOfRange rfl⟩
  refine ⟨_, exec_transfer_of_inRange rfl hin, fun k hk => ?_, index_after_block_toNat hin, rfl, ?_⟩
  · have hlen : k.val < (s.regsUpTo x).length := by rw [length_regsUpTo]; exact Nat.lt_succ_of_le hk
    exact (read_writeList_indexAddr hin hk hlen).trans (getElem_regsUpTo s x k hlen)
  · have hstore := onlyWrites_writeList s (s.indexAddr 0) (s.regsUpTo x)
    rw [length_regsUpTo] at hstore
    exact ((hstore.trans (onlyWrites_setI _ _)).trans (onlyWrites_advance _)).mono (by simp)

/-- Register k of a load of V0 to VX from I is the byte at I + k. -/
theorem getElem_writeRegs_bytesAtIndex (s : State) {x k : RegIdx} (h : k ≤ x) :
    (writeRegs s.v 0 (s.bytesAtIndex (x.val + 1)))[k] = s.mem.read (s.indexAddr k.val) := by
  have hlen : k.val < (s.bytesAtIndex (x.val + 1)).length := by
    rw [length_bytesAtIndex]; exact Nat.lt_succ_of_le h
  rw [Fin.getElem_fin, writeRegs_getElem, dif_pos ⟨Nat.zero_le _, hlen⟩]
  exact getElem_bytesAtIndex s hlen

/-- Settles O59: the registers loaded are `writeRegs` of `bytesAtIndex`. -/
theorem blockLoadReadsRegistersAndAdvancesIndex : Obligations.BlockLoadReadsRegistersAndAdvancesIndex := by
  intro x s
  refine ⟨fun hin => ?_, exec_transfer_of_outOfRange rfl⟩
  have hload := onlyWrites_loadRegs s x (s.bytesAtIndex (x.val + 1)) (length_bytesAtIndex s _)
  exact ⟨_, exec_transfer_of_inRange rfl hin, fun _ hk => getElem_writeRegs_bytesAtIndex s hk,
    index_after_block_toNat hin, rfl,
    ((hload.trans (onlyWrites_setI _ _)).trans (onlyWrites_advance _)).mono (by simp)⟩

end Sys2Proof.Machine

/-! Exceptions (spec/60_exceptions.md): the timer tick, the unknown opcode, and the fatal faults with their table. -/

namespace Sys2Proof.Machine

/-! ### The timer tick (R125) -/

theorem timerTick_dt_toNat (due : Bool) (s : State) :
    (timerTick due s).dt.toNat = s.dt.toNat - if due then 1 else 0 := by
  cases due
  · rfl
  · exact countDown_toNat s.dt

theorem timerTick_st_toNat (due : Bool) (s : State) :
    (timerTick due s).st.toNat = s.st.toNat - if due then 1 else 0 := by
  cases due
  · rfl
  · exact countDown_toNat s.st

/-- Settles O33: both transactions end in a `timerTick`, due unless the core is halted. -/
theorem tickCountsTheTimersDown : Obligations.TickCountsTheTimersDown := by
  refine ⟨fun s rest hp => ?_, fun s s0 tickDue rnd w i t hi hs hf hd he => ?_⟩
  · refine ⟨_, step_of_pending hp, ?_, ?_,
      (onlyWrites_timerTick (!s.halted) s).trans (onlyWrites_reply_pending _ .done rest)⟩
    · refine (timerTick_dt_toNat (!s.halted) s).trans ?_
      cases s.halted <;> rfl
    · refine (timerTick_st_toNat (!s.halted) s).trans ?_
      cases s.halted <;> rfl
  · obtain ⟨hh, -, -, hf0⟩ := hi.fields
    refine ⟨_, hi.step_eq.trans (serveStep_of_exec _ _ (hh.trans hs) (hf0.trans hf) hd he), ?_, ?_,
      onlyWrites_timerTick _ t⟩
    · simpa using timerTick_dt_toNat (tickDue && !t.halted) t
    · simpa using timerTick_st_toNat (tickDue && !t.halted) t

/-! ### The unknown opcode (R118) -/

theorem onlyWrites_lastDiag (s : State) (d : Diag) : OnlyWrites s { s with lastDiag := d } [.lastDiag] := by
  intro p hp
  cases p
  case lastDiag => simp at hp
  all_goals rfl

theorem StepIssued.timers {s s0 : State} {tickDue : Bool} {rnd : Byte} (h : StepIssued s tickDue rnd s0) :
    s0.dt = s.dt ∧ s0.st = s.st :=
  ⟨h.onlyWrites .dt (by simp), h.onlyWrites .st (by simp)⟩

/-- Settles O8: the Step ends in the tick of the begun state with the outcome written, and neither the outcome nor
the tick touches halted, pc or memory. -/
theorem unknownOpcodeIsReportedAndLeavesTheRest : Obligations.UnknownOpcodeIsReportedAndLeavesTheRest := by
  intro s s0 tickDue rnd w e hi hs hf hd
  obtain ⟨hh, -, -, hf0⟩ := hi.fields
  obtain ⟨hdt, hst⟩ := hi.timers
  refine ⟨_, hi.step_eq.trans (serveStep_of_unknown _ _ (hh.trans hs) (hf0.trans hf) hd), rfl, hh.trans hs,
    hf0.trans hf, ?_, ?_, (onlyWrites_lastDiag _ _).trans (onlyWrites_timerTick _ _)⟩
  · rw [← hdt]; exact timerTick_dt_toNat _ _
  · rw [← hst]; exact timerTick_st_toNat _ _

/-! ### Fatal faults (R117, R121) -/

/-- Settles O10: an instruction that halts a running core has raised one fault, and that is all it did. -/
theorem faultsArePrecise : Obligations.FaultsArePrecise := by
  intro i s t hs he ht
  rcases exec_fault_cases he with ⟨c, info, rfl⟩ | ⟨hkept, -, -⟩
  · exact ⟨c, info, takesFault_raiseFault c info s, rfl⟩
  · rw [hkept, hs] at ht; cases ht

/-- The fault of a transfer of `count` bytes from I upward. -/
def State.transferFault (s : State) (count : Nat) : Option (FaultCause × Nat) :=
  (firstBadAddress (s.indexAddr 0) count).map (FaultCause.dataRange, ·)

/-- The fault that R117's table gives an instruction, with its info. -/
def tabledFault (s : State) : Instr → Option (FaultCause × Nat)
  | .call _ => if s.sp.val = 16 then some (.stackOverflow, s.pc.toNat) else none
  | .ret => if s.sp.val = 0 then some (.stackUnderflow, s.pc.toNat) else none
  | .drw _ _ n => s.transferFault n
  | .ldB _ => s.transferFault 3
  | .ldMemVx x | .ldVxMem x => s.transferFault (x.val + 1)
  | .skp x | .sknp x => if 15 < s.v[x].toNat then some (.keyRange, s.v[x].toNat) else none
  | .cls | .jp _ | .seImm _ _ | .sneImm _ _ | .seReg _ _ | .ldImm _ _ | .addImm _ _ | .ldReg _ _
  | .orReg _ _ | .andReg _ _ | .xorReg _ _ | .addReg _ _ | .sub _ _ | .shr _ _ | .subn _ _ | .shl _ _
  | .sneReg _ _ | .ldI _ | .jpV0 _ | .rnd _ _ | .ldVxDt _ | .ldK _ | .ldDtVx _ | .ldStVx _ | .addI _
  | .ldF _ => none

section
variable {i : Instr} {s t k : State} {c : FaultCause} {info count : Nat} {w : Word} {rnd : Byte}

/-- The info of a transfer's fault is the lowest of its addresses outside memory (R120). -/
theorem transferFault_eq_some : s.transferFault count = some (c, info) ↔
    c = .dataRange ∧ ∃ k, info = s.indexAddr k ∧ 4096 ≤ s.indexAddr k ∧ (∀ j < k, s.indexAddr j < 4096) ∧
      k < count := by
  simp only [State.transferFault, firstBadAddress_eq, State.indexAddr, Config.memSize, Nat.add_zero]
  constructor
  · intro h
    split at h
    · cases h
    · cases h
      exact ⟨rfl, max s.i.toNat 4096 - s.i.toNat, by omega, by omega, fun j hj => by omega, by omega⟩
  · rintro ⟨rfl, k, rfl, hout, hlow, hk⟩
    have hfirst : max s.i.toNat 4096 = s.i.toNat + k := by
      rcases Nat.eq_zero_or_pos k with rfl | hpos
      · omega
      · have := hlow (k - 1) (by omega)
        omega
    rw [if_neg (by omega), hfirst]
    rfl

theorem whenInRange_of_transferFault (h : s.transferFault count = some (c, info)) :
    whenInRange (s.indexAddr 0) count s k = raiseFault c info s := by
  obtain ⟨a, ha, he⟩ := Option.map_eq_some_iff.1 h
  cases he
  simp only [whenInRange, ha]

theorem whenInRange_of_no_transferFault (h : s.transferFault count = none) :
    whenInRange (s.indexAddr 0) count s k = k := by
  simp only [whenInRange, Option.map_eq_none_iff.1 h]

/-- The table's fault is raised. -/
theorem exec_of_tabledFault (h : tabledFault s i = some (c, info)) : exec i s = .next (raiseFault c info s) := by
  cases i
  case call nnn =>
    obtain ⟨hsp, ⟨⟩⟩ := Option.ite_none_right_eq_some.1 h
    exact exec_call_of_full (State.push_of_full hsp _)
  case ret =>
    obtain ⟨hsp, ⟨⟩⟩ := Option.ite_none_right_eq_some.1 h
    exact exec_ret_of_empty (State.pop_of_empty hsp)
  case skp x =>
    obtain ⟨habove, ⟨⟩⟩ := Option.ite_none_right_eq_some.1 h
    exact exec_skp_of_no_key (State.keyOf_of_above habove)
  case sknp x =>
    obtain ⟨habove, ⟨⟩⟩ := Option.ite_none_right_eq_some.1 h
    exact exec_sknp_of_no_key (State.keyOf_of_above habove)
  case drw | ldB | ldMemVx | ldVxMem =>
    exact congrArg Host.Outcome.next (whenInRange_of_transferFault h)
  all_goals cases h

/-- Where the table gives none, the instruction raises none. -/
theorem exec_halted_of_no_tabledFault (he : exec i s = .next t) (h : tabledFault s i = none) :
    t.halted = s.halted := by
  cases i
  case call nnn =>
    rcases s.push_cases s.pc with ⟨hfull, -⟩ | ⟨_, hpush⟩
    · simp [tabledFault, hfull] at h
    · rw [exec_call_of_push hpush] at he
      cases he; rfl
  case ret =>
    rcases s.pop_cases with ⟨hempty, -⟩ | ⟨_, hpop⟩
    · simp [tabledFault, hempty] at h
    · rw [exec_ret_of_pop hpop] at he
      cases he; rfl
  case skp x =>
    have hin : s.v[x].toNat < 16 := by simpa [tabledFault, Nat.lt_succ_iff] using h
    rw [exec_skp_of_key (State.keyOf_of_index (k := ⟨_, hin⟩) rfl)] at he
    cases he; rfl
  case sknp x =>
    have hin : s.v[x].toNat < 16 := by simpa [tabledFault, Nat.lt_succ_iff] using h
    rw [exec_sknp_of_key (State.keyOf_of_index (k := ⟨_, hin⟩) rfl)] at he
    cases he; rfl
  case ldK x =>
    cases hk : lowestKey s.key with
    | some k => rw [exec_ldK_of_lowestKey hk] at he; cases he; rfl
    | none => rw [exec_ldK_of_no_key hk] at he; cases he; rfl
  case drw | ldB | ldMemVx | ldVxMem =>
    cases he
    rw [whenInRange_of_no_transferFault h]; rfl
  all_goals cases he; rfl

/-- An instruction of a running core ends halted exactly with the fault of the table. -/
theorem exec_fault_iff (hs : s.halted = false) (he : exec i s = .next t) {n : BitVec 3} :
    (t.halted = true ∧ t.faultCode = n ∧ t.lastDiag = .fault c info) ↔
      n = c.code ∧ tabledFault s i = some (c, info) := by
  cases hf : tabledFault s i with
  | none => simp [exec_halted_of_no_tabledFault he hf, hs]
  | some f =>
    obtain ⟨c', info'⟩ := f
    rw [exec_of_tabledFault hf] at he
    cases he
    simp only [raiseFault_halted, raiseFault_faultCode, raiseFault_lastDiag, Diag.fault.injEq,
      Option.some.injEq, Prod.mk.injEq, true_and]
    constructor <;> (rintro ⟨rfl, rfl, rfl⟩; exact ⟨rfl, rfl, rfl⟩)

/-! ### The rows of the table (R117) -/

/-- A transfer raises DataRange alone. -/
theorem transferFault_ne (h : c ≠ .dataRange) : s.transferFault count ≠ some (c, info) :=
  fun e => h (transferFault_eq_some.1 e).1

theorem tabledFault_stackOverflow : tabledFault s i = some (.stackOverflow, info) ↔
    info = s.pc.toNat ∧ s.sp.val = 16 ∧ ∃ nnn, i = .call nnn := by
  cases i
  case call nnn => simp [tabledFault, and_comm, eq_comm]
  all_goals simp [tabledFault, transferFault_ne]

theorem tabledFault_stackUnderflow : tabledFault s i = some (.stackUnderflow, info) ↔
    info = s.pc.toNat ∧ s.sp.val = 0 ∧ i = .ret := by
  cases i
  case ret => simp [tabledFault, and_comm, eq_comm]
  all_goals simp [tabledFault, transferFault_ne]

theorem tabledFault_dataRange : tabledFault s i = some (.dataRange, info) ↔
    ∃ k, info = s.indexAddr k ∧ 4096 ≤ s.indexAddr k ∧ (∀ j < k, s.indexAddr j < 4096) ∧
      ((∃ x y rows, i = .drw x y rows ∧ k < rows) ∨ (∃ x, i = .ldB x ∧ k ≤ 2) ∨
        (∃ x : RegIdx, (i = .ldMemVx x ∨ i = .ldVxMem x) ∧ k ≤ x.val)) := by
  cases i
  case drw | ldB | ldMemVx | ldVxMem => simp [tabledFault, transferFault_eq_some, Nat.lt_succ_iff]
  all_goals simp [tabledFault]

theorem tabledFault_keyRange : tabledFault s i = some (.keyRange, info) ↔
    ∃ x : RegIdx, info = s.v[x].toNat ∧ 15 < s.v[x].toNat ∧ (i = .skp x ∨ i = .sknp x) := by
  cases i
  case skp | sknp => simp [tabledFault, and_comm, eq_comm]
  all_goals simp [tabledFault, transferFault_ne]

/-- The Fetch alone raises FetchRange (R47). -/
theorem tabledFault_ne_fetchRange : tabledFault s i ≠ some (.fetchRange, info) := by
  cases i <;> simp [tabledFault, transferFault_ne]

/-! ### FetchRange -/

theorem FaultCause.eq_fetchRange_of_code (h : c.code = 3) : c = .fetchRange := by
  cases c
  case fetchRange => rfl
  all_goals exact absurd h (by decide)

/-- No instruction ends with the Fetch's fault. -/
theorem exec_not_fetchRange (hs : s.halted = false) (hok : s.lastDiag = .ok) (he : exec i s = .next t) :
    ¬(t.halted = true ∧ t.faultCode = 3) ∧ ∀ info, t.lastDiag ≠ .fault .fetchRange info := by
  rcases exec_fault_cases he with ⟨c, n, rfl⟩ | ⟨hkept, -, hdiag⟩
  · have htabled : tabledFault s i = some (c, n) := ((exec_fault_iff hs he).1 ⟨rfl, rfl, rfl⟩).2
    have hc : c ≠ .fetchRange := fun e => tabledFault_ne_fetchRange (e ▸ htabled)
    exact ⟨fun ⟨_, hcode⟩ => hc (FaultCause.eq_fetchRange_of_code hcode), fun _ e => hc (Diag.fault.inj e).1⟩
  · simp [hkept, hs, hdiag, hok]

/-- A Step that fetches a word ends without FetchRange, whatever the word is. -/
theorem serveStep_not_fetchRange {tickDue : Bool} (hs : s.halted = false) (hf : fetch s = some w)
    (h : serveStep tickDue rnd s = .next t) :
    ¬(t.halted = true ∧ t.faultCode = 3) ∧ ∀ info, t.lastDiag ≠ .fault .fetchRange info := by
  rcases serveStep_cases h with ⟨hh, -⟩ | ⟨-, hn, -⟩ | ⟨w', e, -, -, -, rfl⟩ | ⟨w', i, u, -, -, -, he, rfl⟩
  · rw [hs] at hh; cases hh
  · rw [hf] at hn; cases hn
  · simp [hs]
  · exact (exec_not_fetchRange (s := begun s rnd) hs rfl he :)

end

/-- Settles O11: an instruction's faults are those of `tabledFault`, read row by row; a Step raises FetchRange
where it fetches no word, and nowhere else. -/
theorem faultsAreRaisedExactlyAsTabled : Obligations.FaultsAreRaisedExactlyAsTabled := by
  refine ⟨fun i s t n c info hs he => (exec_fault_iff hs he).trans ?_,
    fun s s0 t tickDue rnd hi hs h => ?_⟩
  · cases c
    case fetchRange => simp [tabledFault_ne_fetchRange]
    all_goals simp [FaultCause.code, tabledFault_stackOverflow, tabledFault_stackUnderflow,
      tabledFault_dataRange, tabledFault_keyRange]
  · obtain ⟨hh, hpc, -, hf⟩ := hi.fields
    rw [hi.step_eq] at h
    by_cases hout : 4096 ≤ s.pc.toNat + 1
    · rw [serveStep_of_fetchRange _ _ (hh.trans hs) (hf.trans (fetch_of_outOfRange hout))] at h
      cases h
      simp [hout, hpc, FaultCause.code, eq_comm]
    · obtain ⟨hcode, hdiag⟩ := serveStep_not_fetchRange (hh.trans hs)
        (hf.trans (fetch_of_inRange (Nat.not_le.1 hout))) h
      exact ⟨iff_of_false hcode hout, fun info => iff_of_false (hdiag info) fun hp => hout hp.1⟩

end Sys2Proof.Machine

/-! Reset (spec/70_reset_and_hazards.md R131): what its memory holds, and the whole of its effect. -/

namespace Sys2Proof.Machine

/-! ### A memory with no listed byte (R38) -/

/-- Below 80 a memory that lists nothing holds FONT. -/
theorem Memory.read_of_no_cells_font {font : Vector Byte 80} {a : Nat} (h : a < 80) :
    Memory.read ⟨font, []⟩ a = font[a] :=
  dif_pos h

/-- From 80 upward a memory that lists nothing holds zeros. -/
theorem Memory.read_of_no_cells_above {font : Vector Byte 80} {a : Nat} (h : 80 ≤ a) :
    Memory.read ⟨font, []⟩ a = 0 :=
  dif_neg (Nat.not_lt.2 h)

/-! ### The transaction -/

/-- A waiting Reset is served, running core or not (R122, R131). -/
theorem step_of_reset {s : State} {rest : List Txn} (h : s.pending = .reset :: rest) :
    step s = .next { resetCore { s with pending := rest } with reply := .done } :=
  step_of_pending h

/-- Settles O27: `resetCore` gives each element its value; the cleared register files read as their one entry, and
the memory lists no byte. -/
theorem resetRestoresEveryElement : Obligations.ResetRestoresEveryElement := by
  intro s rest hp
  refine ⟨_, step_of_reset hp, ?v, rfl, rfl, ?stack, rfl, rfl, rfl, ?font, ?above, pixelAt_blankScreen, ?key,
    rfl, rfl, rfl, rfl, rfl, rfl⟩
  case v => exact fun r => Vector.getElem_replicate r.isLt
  case stack => exact fun k => Vector.getElem_replicate k.isLt
  case font => exact fun a h => Memory.read_of_no_cells_font h
  case above => exact fun a h => Memory.read_of_no_cells_above h
  case key => exact fun k => Vector.getElem_replicate k.isLt

end Sys2Proof.Machine

/-! Encoding (spec/30_encoding.md): the opcode map row by row, the unknown opcodes, and words of the spec's tables. -/

namespace Sys2Proof

/-! ### What a row of the opcode map tests (R68) -/

theorem and_maskOp_eq (w p : Word) : w &&& 0xF000 = p &&& 0xF000 ↔ opField w = opField p := by
  rw [and_maskOp, and_maskOp, packXYN_inj]; simp

theorem and_maskOpN_eq (w p : Word) :
    w &&& 0xF00F = p &&& 0xF00F ↔ opField w = opField p ∧ nField w = nField p := by
  rw [and_maskOpN, and_maskOpN, packXYN_inj]; simp

theorem and_maskOpNN_eq (w p : Word) :
    w &&& 0xF0FF = p &&& 0xF0FF ↔ opField w = opField p ∧ nnField w = nnField p := by
  rw [and_maskOpNN, and_maskOpNN, packXNN_inj]; simp

/-- Each row has one of three masks, and no pattern bit outside its mask. -/
theorem mask_of_mem_opcodeMap : ∀ r ∈ opcodeMap,
    r.pattern = r.pattern &&& r.mask ∧ (r.mask = 0xF000 ∨ r.mask = 0xF00F ∨ r.mask = 0xF0FF) := by
  decide

/-- The row takes these fields: the family is its own, and so is the sub-opcode N or NN where its mask keeps one. -/
def OpcodeRow.takes (op n : Nibble) (nn : Byte) (r : OpcodeRow) : Bool :=
  op == opField r.pattern &&
    if r.mask = 0xF00F then n == nField r.pattern
    else if r.mask = 0xF0FF then nn == nnField r.pattern
    else true

/-- The masked comparison of R68 is a test on the fields of the word. -/
theorem row_matches_eq_takes (w : Word) {r : OpcodeRow} (hr : r ∈ opcodeMap) :
    (w &&& r.mask == r.pattern) = r.takes (opField w) (nField w) (nnField w) := by
  obtain ⟨hp, hm⟩ := mask_of_mem_opcodeMap r hr
  rw [Bool.eq_iff_iff, beq_iff_eq, hp]
  rcases hm with hm | hm | hm
  · rw [hm, and_maskOp_eq]; simp [OpcodeRow.takes, hm]
  · rw [hm, and_maskOpN_eq]; simp [OpcodeRow.takes, hm]
  · rw [hm, and_maskOpNN_eq]; simp [OpcodeRow.takes, hm]

/-- The first row that takes these fields. With a known family and sub-opcode it is found by computation. -/
def rowFor (op n : Nibble) (nn : Byte) : Option OpcodeRow := opcodeMap.find? (·.takes op n nn)

theorem decodeByMap_eq (w : Word) : decodeByMap w =
    (rowFor (opField w) (nField w) (nnField w)).elim (.error (.unknownOpcode w)) fun r => .ok (r.build w) := by
  have hfind := List.find?_congr fun r hr => row_matches_eq_takes w (r := r) hr
  rw [decodeByMap, hfind, rowFor]
  cases List.find? _ opcodeMap <;> rfl

section
variable {n : Nibble} {nn : Byte}

theorem rowFor_family0_none (h : nn ∉ [0xE0#8, 0xEE#8]) : rowFor 0x0#4 n nn = none := by
  simpa [rowFor, opcodeMap, OpcodeRow.takes, opField, nnField] using h

theorem rowFor_family8_none (h : n ∉ [0x0#4, 0x1#4, 0x2#4, 0x3#4, 0x4#4, 0x5#4, 0x6#4, 0x7#4, 0xE#4]) :
    rowFor 0x8#4 n nn = none := by
  simpa [rowFor, opcodeMap, OpcodeRow.takes, opField, nField] using h

theorem rowFor_familyE_none (h : nn ∉ [0x9E#8, 0xA1#8]) : rowFor 0xE#4 n nn = none := by
  simpa [rowFor, opcodeMap, OpcodeRow.takes, opField, nnField] using h

theorem rowFor_familyF_none
    (h : nn ∉ [0x07#8, 0x0A#8, 0x15#8, 0x18#8, 0x1E#8, 0x29#8, 0x33#8, 0x55#8, 0x65#8]) :
    rowFor 0xF#4 n nn = none := by
  simpa [rowFor, opcodeMap, OpcodeRow.takes, opField, nnField] using h

/-- Sixteen families, so that the dispatch of R66 leaves none over. -/
theorem mem_nibbles (n : Nibble) : n ∈ [0x0#4, 0x1#4, 0x2#4, 0x3#4, 0x4#4, 0x5#4, 0x6#4, 0x7#4, 0x8#4, 0x9#4,
    0xA#4, 0xB#4, 0xC#4, 0xD#4, 0xE#4, 0xF#4] := by
  revert n; decide

end

/-- Settles O2: on each arm of the two-level dispatch the fields are known, and `rowFor` finds the arm's row; on the
default arm of a family it finds none. -/
theorem decoderFollowsTheOpcodeMap : Obligations.DecoderFollowsTheOpcodeMap := by
  intro w
  rw [decodeByMap_eq]
  unfold decodeWord
  split
  case h_1 hop =>
    unfold decodeFamily0
    split
    case h_3 => rw [hop, rowFor_family0_none (by simp_all)]; rfl
    case h_1 hnn | h_2 hnn => rw [hop, hnn]; rfl
  case h_9 hop =>
    unfold decodeFamily8
    split
    case h_10 => rw [hop, rowFor_family8_none (by simp_all)]; rfl
    all_goals rename_i hn; rw [hop, hn]; rfl
  case h_15 hop =>
    unfold decodeFamilyE
    split
    case h_3 => rw [hop, rowFor_familyE_none (by simp_all)]; rfl
    case h_1 hnn | h_2 hnn => rw [hop, hnn]; rfl
  case h_16 hop =>
    unfold decodeFamilyF
    split
    case h_10 => rw [hop, rowFor_familyF_none (by simp_all)]; rfl
    all_goals rename_i hnn; rw [hop, hnn]; rfl
  case h_17 => exact absurd (mem_nibbles (opField w)) (by simp_all)
  all_goals rename_i hop; rw [hop]; rfl

/-! ### The unknown opcodes (R69) -/

section
variable {w : Word}

theorem decodeFamily0_eq_error :
    decodeFamily0 w = .error (.unknownOpcode w) ↔ nnField w ∉ [0xE0#8, 0xEE#8] := by
  unfold decodeFamily0
  split <;> simp_all

theorem decodeFamily8_eq_error : decodeFamily8 w = .error (.unknownOpcode w) ↔
    nField w ∉ [0x0#4, 0x1#4, 0x2#4, 0x3#4, 0x4#4, 0x5#4, 0x6#4, 0x7#4, 0xE#4] := by
  unfold decodeFamily8
  split <;> simp_all

theorem decodeFamilyE_eq_error :
    decodeFamilyE w = .error (.unknownOpcode w) ↔ nnField w ∉ [0x9E#8, 0xA1#8] := by
  unfold decodeFamilyE
  split <;> simp_all

theorem decodeFamilyF_eq_error : decodeFamilyF w = .error (.unknownOpcode w) ↔
    nnField w ∉ [0x07#8, 0x0A#8, 0x15#8, 0x18#8, 0x1E#8, 0x29#8, 0x33#8, 0x55#8, 0x65#8] := by
  unfold decodeFamilyF
  split <;> simp_all

/-- Only the four families with a sub-opcode have unknown words. -/
theorem decodeWord_eq_error : decodeWord w = .error (.unknownOpcode w) ↔
    (opField w = 0x0#4 ∧ decodeFamily0 w = .error (.unknownOpcode w)) ∨
    (opField w = 0x8#4 ∧ decodeFamily8 w = .error (.unknownOpcode w)) ∨
    (opField w = 0xE#4 ∧ decodeFamilyE w = .error (.unknownOpcode w)) ∨
    (opField w = 0xF#4 ∧ decodeFamilyF w = .error (.unknownOpcode w)) := by
  unfold decodeWord
  split
  case h_17 => exact absurd (mem_nibbles (opField w)) (by simp_all)
  all_goals rename_i hop; simp [hop]

theorem decodeWord_ok_or_error (w : Word) :
    (∃ i, decodeWord w = .ok i) ∨ decodeWord w = .error (.unknownOpcode w) := by
  rw [decoderFollowsTheOpcodeMap, decodeByMap_eq]
  cases rowFor (opField w) (nField w) (nnField w) with
  | none => exact .inr rfl
  | some r => exact .inl ⟨_, rfl⟩

end

/-- The sub-opcodes of family 0x8 that are none, listed as R69 lists them. -/
theorem subOpcode8_unknown_iff (n : Nibble) :
    n ∉ [0x0#4, 0x1#4, 0x2#4, 0x3#4, 0x4#4, 0x5#4, 0x6#4, 0x7#4, 0xE#4] ↔
      n ∈ [0x8#4, 0x9#4, 0xA#4, 0xB#4, 0xC#4, 0xD#4, 0xF#4] := by
  revert n; decide

theorem toNat_mem_map_toNat {k : Nat} {a : BitVec k} {l : List (BitVec k)} :
    a.toNat ∈ l.map BitVec.toNat ↔ a ∈ l :=
  List.mem_map_of_injective fun _ _ => BitVec.eq_of_toNat_eq

/-- Settles O3: the unknown words family by family, with each field of the word read as a number. -/
theorem unknownOpcodesAreTheListedOnes : Obligations.UnknownOpcodesAreTheListedOnes := by
  refine fun w => ⟨decodeWord_ok_or_error w, ?_⟩
  rw [decodeWord_eq_error, decodeFamily0_eq_error, decodeFamily8_eq_error, decodeFamilyE_eq_error,
    decodeFamilyF_eq_error, subOpcode8_unknown_iff]
  simp only [← toNat_mem_map_toNat, ← BitVec.toNat_inj, opField_toNat, nField_toNat, nnField_toNat]
  rfl

/-- Settles O5: the decoder computes each of the eleven. -/
theorem specWordsDecode : Obligations.SpecWordsDecode :=
  ⟨rfl, rfl, rfl, rfl, rfl, rfl, rfl, rfl, rfl, rfl, rfl⟩

end Sys2Proof

/-! The state (spec/10_state.md): the instructions that write each part of it, and those that read the
configuration. -/

namespace Sys2Proof.Machine

/-! ### The host's side of the interface -/

/-- The parts on the host's side: the latch and the configuration (R31 to R33, R37), the input rnd (R36), and the
model's own bookkeeping. -/
def Part.hostOwned : Part → Bool
  | .key _ | .font | .legacy | .indexOvf | .configOpen | .reply | .rnd | .stepNo | .pending => true
  | .reg _ | .pc | .index | .stack _ | .sp | .dt | .st | .byte _ | .screen | .drawFlag | .halted | .faultCode
  | .lastDiag => false

theorem hostOwned_mayWrite (s : State) (i : Instr) : (mayWrite s i).any Part.hostOwned = false := by
  have hbytes (a n : Nat) : (bytesFrom a n).any Part.hostOwned = false := by simp [bytesFrom, Part.hostOwned]
  have hregs (x : RegIdx) : (regsThrough x).any Part.hostOwned = false := by simp [regsThrough, Part.hostOwned]
  cases i
  case addI => cases h : s.indexOvf <;> simp [mayWrite, h, Part.hostOwned]
  case ldB | ldMemVx | ldVxMem =>
    simp only [mayWrite, List.any_append, List.any_cons, hbytes, hregs]; rfl
  all_goals rfl

/-- An instruction writes no part of the host's. -/
theorem exec_same_of_hostOwned {i : Instr} {s t : State} {p : Part} (h : exec i s = .next t)
    (hp : p.hostOwned = true) : p.same s t :=
  exec_onlyWrites h p fun hm => List.any_eq_false.1 (hostOwned_mayWrite s i) p hm hp

/-- Settles O19: all eight are parts of the host's. -/
theorem instructionsLeaveTheHostsStateAlone : Obligations.InstructionsLeaveTheHostsStateAlone := by
  intro i s t h
  have hsame (p : Part) (hp : p.hostOwned = true) : p.same s t := exec_same_of_hostOwned h hp
  exact ⟨hsame .legacy rfl, hsame .indexOvf rfl, hsame .font rfl, hsame .configOpen rfl, hsame .reply rfl,
    hsame .rnd rfl, hsame .stepNo rfl, hsame .pending rfl⟩

/-! ### The stack -/

section
variable {i : Instr} {s t : State}

/-- Only CALL writes a stack entry (R24). -/
theorem exec_stack (h : exec i s = .next t) (hcall : ∀ nnn, i ≠ .call nnn) (k : Fin 16) :
    t.stack[k] = s.stack[k] := by
  refine exec_onlyWrites h (.stack k) fun hm => ?_
  cases i
  case call nnn => exact hcall nnn rfl
  all_goals simp [mayWrite, faultParts, bytesFrom, regsThrough] at hm

/-- Only CALL and RET move sp (R25). -/
theorem exec_sp (h : exec i s = .next t) (hcall : ∀ nnn, i ≠ .call nnn) (hret : i ≠ .ret) : t.sp = s.sp := by
  refine exec_onlyWrites h .sp fun hm => ?_
  cases i
  case call nnn => exact hcall nnn rfl
  case ret => exact hret rfl
  all_goals simp [mayWrite, faultParts, bytesFrom, regsThrough] at hm

end

/-- Settles O16: `mayWrite` names a stack entry for CALL alone, and sp for CALL and RET alone. -/
theorem stackBelongsToCallAndRet : Obligations.StackBelongsToCallAndRet :=
  fun _ _ _ h => ⟨exec_stack h, exec_sp h⟩

/-! ### Memory -/

theorem byte_mem_bytesFrom {a base n : Nat} : Part.byte a ∈ bytesFrom base n ↔ ∃ k < n, a = base + k := by
  simp [bytesFrom, eq_comm]

theorem byte_not_mem_regsThrough (a : Nat) (x : RegIdx) : Part.byte a ∉ regsThrough x := by
  simp [regsThrough]

/-- Settles O17: a changed byte is one the instruction may write, and only FX33 and FX55 may write bytes. -/
theorem memoryIsStoredByFx33AndFx55Alone : Obligations.MemoryIsStoredByFx33AndFx55Alone := by
  intro i s t a h hc
  have hm : Part.byte a ∈ mayWrite s i := mem_mayWrite_of_changed h hc
  cases i
  case ldB x =>
    obtain ⟨k, hk, ha⟩ : ∃ k < 3, a = s.indexAddr 0 + k := by
      simpa [mayWrite, faultParts, byte_mem_bytesFrom] using hm
    exact .inl ⟨x, k, rfl, Nat.le_of_lt_succ hk, ha⟩
  case ldMemVx x =>
    obtain ⟨k, hk, ha⟩ : ∃ k < x.val + 1, a = s.indexAddr 0 + k := by
      simpa [mayWrite, faultParts, byte_mem_bytesFrom] using hm
    exact .inr ⟨x, k, rfl, Nat.le_of_lt_succ hk, ha⟩
  all_goals simp [mayWrite, faultParts, byte_not_mem_regsThrough] at hm

/-! ### The screen -/

section
variable {i : Instr} {s t : State}

/-- DRW sets draw_flag, or has faulted and leaves it (R29, R102). -/
theorem execDrw_drawFlag {x y : RegIdx} {n : Nat} (h : execDrw x y n s = .next t) :
    t.drawFlag = true ∨ t.halted = true ∧ t.drawFlag = s.drawFlag := by
  cases h
  rcases whenInRange_cases (s.indexAddr 0) n s _ with ⟨-, e⟩ | ⟨-, -, e⟩ <;> rw [e]
  · exact .inl rfl
  · exact .inr ⟨rfl, rfl⟩

/-- Only CLS and DRW write the screen and draw_flag (R28, R29). -/
theorem exec_screen (h : exec i s = .next t) (hcls : i ≠ .cls) (hdrw : ∀ x y n, i ≠ .drw x y n) :
    t.fb = s.fb ∧ t.drawFlag = s.drawFlag := by
  have hnot : Part.screen ∉ mayWrite s i ∧ Part.drawFlag ∉ mayWrite s i := by
    cases i
    case cls => exact absurd rfl hcls
    case drw x y n => exact absurd rfl (hdrw x y n)
    all_goals simp [mayWrite, faultParts, bytesFrom, regsThrough]
  exact ⟨exec_onlyWrites h .screen hnot.1, exec_onlyWrites h .drawFlag hnot.2⟩

end

/-- Settles O18: CLS and a DRW that completes set draw_flag, and the others may not write it. -/
theorem screenBelongsToClsAndDrw : Obligations.ScreenBelongsToClsAndDrw := by
  refine fun i s t hs h => ⟨fun hi ht => ?_, exec_screen h, fun hflag => ?_⟩
  · rcases hi with rfl | ⟨x, y, n, rfl⟩
    · cases h; rfl
    · rcases execDrw_drawFlag h with hset | ⟨hhalted, -⟩
      · exact hset
      · rw [ht] at hhalted; cases hhalted
  · cases i
    case cls => cases h; rfl
    case drw x y n =>
      rcases execDrw_drawFlag h with hset | ⟨-, hkept⟩
      · exact hset
      · exact hkept.trans hflag
    all_goals exact (exec_screen h nofun nofun).2.trans hflag

/-! ### I and the timers -/

/-- Settles O20: `mayWrite` names I, DT and ST for the listed instructions alone. -/
theorem indexAndTimersHaveTheirOwnWriters : Obligations.IndexAndTimersHaveTheirOwnWriters := by
  refine fun i s t h => ⟨fun hc => ?_, fun hc => ?_, fun hc => ?_⟩
  · have hm : Part.index ∈ mayWrite s i := mem_mayWrite_of_changed h hc
    cases i
    case ldI | addI | ldF | ldMemVx | ldVxMem => simp
    all_goals simp [mayWrite, faultParts, bytesFrom] at hm
  · have hm : Part.dt ∈ mayWrite s i := mem_mayWrite_of_changed h hc
    cases i
    case ldDtVx x => exact ⟨x, rfl⟩
    all_goals simp [mayWrite, faultParts, bytesFrom, regsThrough] at hm
  · have hm : Part.st ∈ mayWrite s i := mem_mayWrite_of_changed h hc
    cases i
    case ldStVx x => exact ⟨x, rfl⟩
    all_goals simp [mayWrite, faultParts, bytesFrom, regsThrough] at hm

/-! ### The readers of the configuration (R31, R32) -/

/-- The state with other toggles. -/
def State.withToggles (s : State) (legacy indexOvf : Bool) : State :=
  { s with legacy := legacy, indexOvf := indexOvf }

section
variable {i : Instr} {s t : State} {legacy indexOvf : Bool}

theorem State.pop_withToggles :
    (s.withToggles legacy indexOvf).pop = s.pop.map fun p => (p.1, p.2.withToggles legacy indexOvf) := by
  by_cases h : 0 < s.sp.val <;> simp [State.pop, State.withToggles, h]

theorem State.push_withToggles (a : Word) :
    (s.withToggles legacy indexOvf).push a = (s.push a).map (State.withToggles · legacy indexOvf) := by
  by_cases h : s.sp.val < 16 <;> simp [State.push, State.withToggles, h]

theorem whenInRange_withToggles {base count : Nat} {k k' : State} (hk : k' = k.withToggles legacy indexOvf) :
    whenInRange base count (s.withToggles legacy indexOvf) k' =
      (whenInRange base count s k).withToggles legacy indexOvf := by
  subst hk
  unfold whenInRange
  split <;> rfl

/-- An instruction runs alike with other toggles where it is not the reader of one that differs: a shift reads
LEGACY and FX1E INDEX_OVF_FLAG, and the tests of the others look at other parts. -/
theorem exec_withToggles (hshift : (∀ x y, i ≠ .shr x y ∧ i ≠ .shl x y) ∨ legacy = s.legacy)
    (hadd : (∀ x, i ≠ .addI x) ∨ indexOvf = s.indexOvf) (h : exec i s = .next t) :
    exec i (s.withToggles legacy indexOvf) = .next (t.withToggles legacy indexOvf) := by
  cases i
  case shr x y | shl x y =>
    obtain rfl : legacy = s.legacy := hshift.resolve_left fun hne => by simp at hne
    cases h; rfl
  case addI x =>
    obtain rfl : indexOvf = s.indexOvf := hadd.resolve_left fun hne => hne x rfl
    cases h; rfl
  case drw | ldB | ldMemVx | ldVxMem =>
    cases h
    exact congrArg Host.Outcome.next (whenInRange_withToggles rfl)
  case ret =>
    rcases s.pop_cases with ⟨-, e⟩ | ⟨_, e⟩ <;>
      simp only [exec, execRet, State.pop_withToggles, e, Option.map] at h ⊢ <;> cases h <;> rfl
  case call =>
    have hpc : (s.withToggles legacy indexOvf).pc = s.pc := rfl
    rcases s.push_cases s.pc with ⟨-, e⟩ | ⟨_, e⟩ <;>
      simp only [exec, execCall, hpc, State.push_withToggles, e, Option.map] at h ⊢ <;> cases h <;> rfl
  case skp x | sknp x =>
    have hkey : (s.withToggles legacy indexOvf).keyOf x = s.keyOf x := rfl
    cases hk : s.keyOf x <;> simp only [exec, execSkp, execSknp, hkey, hk] at h ⊢ <;> cases h <;> rfl
  case ldK x =>
    have hkey : (s.withToggles legacy indexOvf).key = s.key := rfl
    cases hk : lowestKey s.key <;> simp only [exec, execLdK, hkey, hk] at h ⊢ <;> cases h <;> rfl
  all_goals cases h; rfl

end

/-- Settles O23: one toggle is exchanged at a time, and the other stands in s and t alike. -/
theorem configurationIsReadOnlyWhereNamed : Obligations.ConfigurationIsReadOnlyWhereNamed := by
  intro i s t legacy indexOvf h
  have hlegacy : t.legacy = s.legacy := exec_same_of_hostOwned h (p := .legacy) rfl
  have hovf : t.indexOvf = s.indexOvf := exec_same_of_hostOwned h (p := .indexOvf) rfl
  refine ⟨fun hi => ?_, fun hi => ?_⟩
  · show exec i (s.withToggles legacy s.indexOvf) = .next (t.withToggles legacy t.indexOvf)
    rw [hovf]
    exact exec_withToggles (.inl hi) (.inr rfl) h
  · show exec i (s.withToggles s.legacy indexOvf) = .next (t.withToggles t.legacy indexOvf)
    rw [hlegacy]
    exact exec_withToggles (.inr rfl) (.inl hi) h

end Sys2Proof.Machine

/-! The transactions (spec/10_state.md R40, spec/60_exceptions.md R122): what each may write, the halted core, and
the host's Ticks in a row. -/

namespace Sys2Proof.Machine

/-! ### What a transaction may write -/

theorem onlyWrites_reply (s : State) (r : Reply) : OnlyWrites s { s with reply := r } [.reply] := by
  intro p hp
  cases p
  case reply => simp at hp
  all_goals rfl

theorem onlyWrites_pending (s : State) (ts : List Txn) : OnlyWrites s { s with pending := ts } [.pending] := by
  intro p hp
  cases p
  case pending => simp at hp
  all_goals rfl

theorem onlyWrites_begun (s : State) (rnd : Byte) :
    OnlyWrites s (begun s rnd) [.rnd, .configOpen, .reply, .lastDiag] := by
  intro p hp
  cases p
  case rnd | configOpen | reply | lastDiag => simp at hp
  all_goals rfl

/-- The parts that a transaction beside Reset and the Step may write, the queue apart (R40). -/
def Txn.writes : Txn → List Part
  | .setConfig _ _ => [.legacy, .indexOvf, .reply]
  | .load bytes => bytesFrom 0x200 bytes.length ++ [.reply]
  | .setKey k _ => if h : k < 16 then [.key ⟨k, h⟩, .reply] else []
  | .clearDrawFlag => [.drawFlag, .reply]
  | .tick => [.dt, .st, .reply]
  | .getPixel _ _ | .readOutputs => [.reply]
  | .reset | .step _ _ => []

section
variable {x : Txn} {s t : State}

theorem serve_onlyWrites (hstep : ∀ tickDue rnd, x ≠ .step tickDue rnd) (hreset : x ≠ .reset)
    (h : serve x s = .next t) : OnlyWrites s t x.writes := by
  have hreply {u : State} {ps : List Part} (hu : OnlyWrites s u ps) (r : Reply) :
      OnlyWrites s { u with reply := r } (ps ++ [.reply]) := hu.trans (onlyWrites_reply u r)
  cases x <;> simp only [serve] at h
  case reset => exact absurd rfl hreset
  case step tickDue rnd => exact absurd rfl (hstep tickDue rnd)
  case setConfig legacy indexOvf =>
    unfold serveSetConfig at h
    split at h <;> cases h
    exact hreply (onlyWrites_configuration s legacy indexOvf) .done
  case load bytes =>
    unfold serveLoad at h
    split at h <;> cases h
    · exact (onlyWrites_reply s .romTooLarge).mono (by simp [Txn.writes])
    · exact hreply (onlyWrites_writeList s 0x200 bytes) .loaded
  case setKey k pressed =>
    unfold serveSetKey at h
    split at h <;> cases h
    rename_i hk
    rw [Txn.writes, dif_pos hk]
    exact hreply (onlyWrites_setKey s ⟨k, hk⟩ pressed) .done
  case clearDrawFlag => cases h; exact hreply (onlyWrites_drawFlag s false) .done
  case tick => cases h; exact hreply (onlyWrites_timerTick _ s) .done
  case getPixel | readOutputs => cases h; exact onlyWrites_reply s _

/-- None of them halts the core, resumes it, or exchanges FONT. -/
theorem halted_font_not_mem_writes (x : Txn) : Part.halted ∉ x.writes ∧ Part.font ∉ x.writes := by
  cases x
  case setKey k _ => by_cases h : k < 16 <;> simp [Txn.writes, h]
  all_goals simp [Txn.writes, bytesFrom]

theorem key_mem_writes {k : Fin 16} (h : Part.key k ∈ x.writes) : ∃ pressed, x = .setKey k.val pressed := by
  cases x
  case setKey j pressed =>
    by_cases hj : j < 16
    · obtain rfl : k = ⟨j, hj⟩ := by simpa [Txn.writes, hj] using h
      exact ⟨pressed, rfl⟩
    · simp [Txn.writes, hj] at h
  all_goals simp [Txn.writes, bytesFrom] at h

theorem toggle_mem_writes (h : Part.legacy ∈ x.writes ∨ Part.indexOvf ∈ x.writes) :
    ∃ legacy indexOvf, x = .setConfig legacy indexOvf := by
  cases x
  case setConfig legacy indexOvf => exact ⟨legacy, indexOvf, rfl⟩
  case setKey k _ => by_cases hk : k < 16 <;> simp [Txn.writes, hk] at h
  all_goals simp [Txn.writes, bytesFrom] at h

/-- A SetConfig with a next state was accepted, and has stored its values (R45). -/
theorem serveSetConfig_accepted {legacy indexOvf : Bool} (h : serveSetConfig legacy indexOvf s = .next t) :
    s.configOpen = true ∧ legacy = t.legacy ∧ indexOvf = t.indexOvf := by
  unfold serveSetConfig at h
  split at h <;> cases h
  rename_i hopen
  exact ⟨hopen, rfl, rfl⟩

/-! ### What a Step leaves of the host's side -/

/-- The parts that a Step may write beside those of its instruction. -/
def stepParts : List Part := [.rnd, .configOpen, .reply, .lastDiag, .halted, .faultCode, .dt, .st]

variable {tickDue : Bool} {rnd : Byte} {p : Part}

/-- A Step leaves the parts of the host's that are no bookkeeping of its own. -/
theorem serveStep_same_of_hostOwned (hp : p.hostOwned = true) (hstep : p ∉ stepParts)
    (h : serveStep tickDue rnd s = .next t) : p.same s t := by
  have hleft {u v : State} {ps : List Part} (hw : OnlyWrites u v ps) (hsub : ∀ q ∈ ps, q ∈ stepParts) :
      p.same u v := hw p fun hm => hstep (hsub p hm)
  have hbegun : p.same s (begun s rnd) := hleft (onlyWrites_begun s rnd) (by simp [stepParts])
  rcases serveStep_cases h with
    ⟨-, rfl⟩ | ⟨-, -, rfl⟩ | ⟨w, e, -, -, -, rfl⟩ | ⟨w, i, u, -, -, -, he, rfl⟩
  · exact hleft ((onlyWrites_lastDiag s .halted).trans (onlyWrites_reply _ .stepped)) (by simp [stepParts])
  · exact p.same_trans hbegun (hleft (onlyWrites_raiseFault _ _ _) (by simp [stepParts]))
  · exact p.same_trans hbegun
      (hleft ((onlyWrites_lastDiag _ _).trans (onlyWrites_timerTick _ _)) (by simp [stepParts]))
  · exact p.same_trans hbegun
      (p.same_trans (exec_same_of_hostOwned he hp) (hleft (onlyWrites_timerTick _ _) (by simp [stepParts])))

theorem StepIssued.same_of_hostOwned {s0 : State} (hi : StepIssued s tickDue rnd s0) (hp : p.hostOwned = true)
    (hstep : p ∉ stepParts) (hqueue : p ∉ [.stepNo, .pending]) (h : step s = .next t) : p.same s t :=
  p.same_trans (hi.onlyWrites p hqueue) (serveStep_same_of_hostOwned hp hstep (hi.step_eq.symm.trans h))

end

/-- Settles O31: a Step leaves the latch and the configuration, a Reset clears the latch alone, and any other
transaction that may write one of them is the SetKey or the SetConfig named. -/
theorem latchAndConfigurationChangeOnlyByTheHost : Obligations.LatchAndConfigurationChangeOnlyByTheHost := by
  intro s t h
  rcases step_cases s with ⟨tickDue, rnd, s0, hi⟩ | ⟨x, rest, hp, hx, he⟩
  · have hsame (p : Part) (hp : p.hostOwned = true) (hstep : p ∉ stepParts)
        (hqueue : p ∉ [.stepNo, .pending]) : p.same s t := hi.same_of_hostOwned hp hstep hqueue h
    refine ⟨fun k hk => absurd (hsame (.key k) rfl (by simp [stepParts]) (by simp)) hk, ?_,
      hsame .font rfl (by decide) (by decide)⟩
    rintro (hc | hc)
    · exact absurd (hsame .legacy rfl (by decide) (by decide)) hc
    · exact absurd (hsame .indexOvf rfl (by decide) (by decide)) hc
  by_cases hreset : x = .reset
  · subst hreset
    rw [step_of_reset hp] at h
    cases h
    exact ⟨fun _ _ => .inr ⟨rest, hp⟩, by simp, rfl⟩
  · have hserve := he.symm.trans h
    have hw : OnlyWrites _ t x.writes := serve_onlyWrites hx hreset hserve
    have hmem {p : Part} (hc : ¬p.same { s with pending := rest } t) : p ∈ x.writes :=
      by_contra fun hn => hc (hw p hn)
    refine ⟨fun k hk => .inl ?_, fun hc => ?_, hw .font (halted_font_not_mem_writes x).2⟩
    · obtain ⟨pressed, rfl⟩ := key_mem_writes (hmem (p := .key k) hk)
      exact ⟨pressed, rest, hp⟩
    · obtain ⟨legacy, indexOvf, rfl⟩ :=
        toggle_mem_writes (hc.imp (hmem (p := .legacy)) (hmem (p := .indexOvf)))
      obtain ⟨hopen, rfl, rfl⟩ := serveSetConfig_accepted hserve
      exact ⟨hopen, rest, hp⟩

/-! ### The halted core (R122) -/

theorem timerTick_of_not_due (s : State) : timerTick false s = s := rfl

/-- Settles O12: a Step answers by `serveStep_of_halted`, and a Tick's timer tick is not due. -/
theorem haltedCoreIsFrozen : Obligations.HaltedCoreIsFrozen := by
  refine ⟨fun s s0 tickDue rnd hi hs => ?_, fun s rest hp hs => ?_⟩
  · have hs0 := hi.fields.1.trans hs
    exact ⟨_, hi.step_eq.trans (serveStep_of_halted tickDue rnd hs0), rfl,
      (onlyWrites_lastDiag s0 .halted).trans (onlyWrites_reply _ .stepped)⟩
  · refine ⟨_, step_of_pending hp, ?_⟩
    simpa only [hs, Bool.not_true, timerTick_of_not_due] using onlyWrites_reply_pending s .done rest

/-- Settles O13: a Step keeps a halted core halted, and beside Reset no transaction may write halted. -/
theorem onlyResetLeavesTheHaltedState : Obligations.OnlyResetLeavesTheHaltedState := by
  intro s t hs h ht
  rcases step_cases s with ⟨tickDue, rnd, s0, hi⟩ | ⟨x, rest, hp, hx, he⟩
  · have hs0 := hi.fields.1.trans hs
    rw [hi.step_eq, serveStep_of_halted _ _ hs0] at h
    cases h
    exact absurd (ht.symm.trans hs0) Bool.false_ne_true
  by_cases hreset : x = .reset
  · exact ⟨rest, hreset ▸ hp⟩
  · have hkept : t.halted = s.halted :=
      serve_onlyWrites hx hreset (he.symm.trans h) .halted (halted_font_not_mem_writes x).1
    exact absurd (ht.symm.trans (hkept.trans hs)) Bool.false_ne_true

/-! ### Ticks in a row (R125) -/

/-- A running core after a Tick, with these transactions still waiting. -/
def State.ticked (s : State) (rest : List Txn) : State :=
  { timerTick true { s with pending := rest } with reply := .done }

theorem step_of_tick {s : State} {rest : List Txn} (hp : s.pending = .tick :: rest) (hs : s.halted = false) :
    step s = .next (s.ticked rest) := by
  simp only [step_of_pending hp, serve, serveTick, hs, Bool.not_false, State.ticked]

section
variable (s : State) (rest : List Txn)

theorem ticked_dt_toNat : (s.ticked rest).dt.toNat = s.dt.toNat - 1 := timerTick_dt_toNat true s

theorem ticked_st_toNat : (s.ticked rest).st.toNat = s.st.toNat - 1 := timerTick_st_toNat true s

theorem onlyWrites_ticked : OnlyWrites s (s.ticked rest) [.dt, .st, .reply, .pending] :=
  (onlyWrites_timerTick true s).trans (onlyWrites_reply_pending _ .done rest)

end

/-- Settles O34, by induction on the number of Ticks. -/
theorem ticksInARowStopAtZero : Obligations.TicksInARowStopAtZero := by
  intro n
  induction n with
  | zero => exact fun s rest hp _ => ⟨s, rfl, rfl, rfl, hp, (OnlyWrites.refl s).mono (by simp)⟩
  | succ n ih =>
    intro s rest hp hs
    obtain ⟨t, hrun, hdt, hst, hpend, hw⟩ := ih (s.ticked _) rest rfl hs
    refine ⟨t, (run_succ n (step_of_tick hp hs)).trans hrun, ?_, ?_, hpend, ?_⟩
    · rw [hdt, ticked_dt_toNat]; omega
    · rw [hst, ticked_st_toNat]; omega
    · exact ((onlyWrites_ticked s _).trans hw).mono (by simp)

end Sys2Proof.Machine

/-! The Step and the instructions (spec/40_flow.md, spec/41_alu.md): decoding and running a Step's instruction, JP V0,
LD I, the shifts, and a CALL with its RET. -/

namespace Sys2Proof.Machine

/-! ### The Step (R75) -/

theorem decodeWord_of_decode_pair {hi lo : Byte} {i : Instr} {rest : List Byte}
    (h : decode [hi, lo] = .ok (i, rest)) : decodeWord (wordOfBytes hi lo) = .ok i := by
  cases hd : decodeWord (wordOfBytes hi lo) with
  | error e => simp [decode, hd, Except.map] at h
  | ok j => simp_all [decode, Except.map]

/-- Settles O6: the fetched word is that of the two bytes, and the rest is `serveStep_of_exec`. -/
theorem stepRunsTheDecodedInstruction : Obligations.StepRunsTheDecodedInstruction := by
  intro s s0 tickDue rnd i rest t hi hs hpc hdecode he
  obtain ⟨hh, -, -, hf⟩ := hi.fields
  exact hi.step_eq.trans (serveStep_of_exec tickDue rnd (hh.trans hs) (hf.trans (fetch_of_inRange hpc))
    (decodeWord_of_decode_pair hdecode) he)

/-- Settles O9: every branch of every instruction, the faults among them, ends in a next state. -/
theorem everyInstructionAnswersANextState : Obligations.EveryInstructionAnswersANextState := by
  intro i s
  cases i
  case ret =>
    rcases s.pop_cases with ⟨-, e⟩ | ⟨_, e⟩
    · exact ⟨_, exec_ret_of_empty e⟩
    · exact ⟨_, exec_ret_of_pop e⟩
  case call nnn =>
    rcases s.push_cases s.pc with ⟨-, e⟩ | ⟨_, e⟩
    · exact ⟨_, exec_call_of_full e⟩
    · exact ⟨_, exec_call_of_push e⟩
  case skp x =>
    cases hk : s.keyOf x with
    | none => exact ⟨_, exec_skp_of_no_key hk⟩
    | some pressed => exact ⟨_, exec_skp_of_key hk⟩
  case sknp x =>
    cases hk : s.keyOf x with
    | none => exact ⟨_, exec_sknp_of_no_key hk⟩
    | some pressed => exact ⟨_, exec_sknp_of_key hk⟩
  case ldK x =>
    cases hk : lowestKey s.key with
    | none => exact ⟨_, exec_ldK_of_no_key hk⟩
    | some k => exact ⟨_, exec_ldK_of_lowestKey hk⟩
  all_goals exact ⟨_, rfl⟩

/-! ### JP V0 and LD I -/

/-- Settles O40: a target of 12 bits and a byte do not reach the wrap of `offsetTarget_toNat`. -/
theorem jpV0AddsV0ToItsTarget : Obligations.JpV0AddsV0ToItsTarget := by
  intro nnn s hnnn
  have hv := s.v[0].isLt
  exact ⟨_, rfl, (offsetTarget_toNat s nnn).trans (Nat.mod_eq_of_lt (by omega)), onlyWrites_setPc s _⟩

/-- Settles O53: LD I is `setI` and the advance. -/
theorem ldISetsTheIndex : Obligations.LdISetsTheIndex :=
  fun nnn s => ⟨_, rfl, rfl, rfl, (onlyWrites_setI s nnn).trans (onlyWrites_advance _)⟩

/-! ### The shifts (R97, R99) -/

theorem shiftSource_toNat (s : State) (x y : RegIdx) :
    (s.shiftSource x y).toNat = if s.legacy = true then s.v[y].toNat else s.v[x].toNat := by
  unfold State.shiftSource
  split <;> rfl

theorem shiftRightFlag_toNat (b : Byte) : (shiftRightFlag b).toNat = b.toNat % 2 := by
  rw [shiftRightFlag, flagByte_toNat, BitVec.getLsbD, Nat.testBit_zero]
  rcases Nat.mod_two_eq_zero_or_one b.toNat with h | h <;> simp [h]

theorem shiftLeftFlag_toNat (b : Byte) : (shiftLeftFlag b).toNat = b.toNat / 128 := by
  have hbit : b.toNat / 128 = 0 ∨ b.toNat / 128 = 1 := by omega
  rw [shiftLeftFlag, flagByte_toNat, BitVec.getLsbD, Nat.testBit_eq_decide_div_mod_eq]
  rcases hbit with h | h <;> simp [h]

theorem shiftLeft_one_toNat (b : Byte) : (b <<< 1).toNat = b.toNat * 2 % 256 := by
  rw [BitVec.toNat_shiftLeft, Nat.shiftLeft_eq]

theorem shiftRight_one_toNat (b : Byte) : (b >>> 1).toNat = b.toNat / 2 := by
  rw [BitVec.toNat_ushiftRight, Nat.shiftRight_eq_div_pow]

/-- A shift writes its result and its flag, each a function of the source that the mode selects. -/
theorem writes_shift {i : Instr} {s : State} {x y : RegIdx} {f b : Byte} {result flag : Nat → Nat}
    (he : exec i s = .next (s.setFlagThenResult x f b).advance)
    (hb : b.toNat = result (s.shiftSource x y).toNat) (hf : f.toNat = flag (s.shiftSource x y).toNat) :
    ∃ t, exec i s = .next t ∧
      (∀ src, src = (if s.legacy = true then s.v[y].toNat else s.v[x].toNat) →
        t.v[x].toNat = result src ∧ (x ≠ 15 → t.v[(15 : RegIdx)].toNat = flag src)) ∧
      t.pc = s.pc + 2 ∧ OnlyWrites s t [.reg x, .reg 15, .pc] := by
  obtain ⟨t, ht, hresult, hflag, hrest⟩ := writes_result_and_flag he hb hf
  refine ⟨t, ht, fun src hsrc => ?_, hrest⟩
  rw [hsrc, ← shiftSource_toNat]
  exact ⟨hresult, hflag⟩

/-- Settles O46: 8XY6 halves the source and gives its bit 0, 8XYE doubles it and gives its bit 7. -/
theorem shiftsMoveTheirSourceByOne : Obligations.ShiftsMoveTheirSourceByOne :=
  fun _ _ _ =>
    ⟨writes_shift rfl (shiftRight_one_toNat _) (shiftRightFlag_toNat _),
      writes_shift rfl (shiftLeft_one_toNat _) (shiftLeftFlag_toNat _)⟩

/-! ### CALL, then RET -/

/-- Settles O38: the entry that CALL pushed is the one that RET pops, and both parts of sp cancel. -/
theorem callThenRetReturnsAfterTheCall : Obligations.CallThenRetReturnsAfterTheCall := by
  intro nnn s hsp
  have hslot : (Fin.ofNat 16 s.sp.val).val = s.sp.val := Nat.mod_eq_of_lt hsp
  obtain ⟨s', hpush, hentry, hsp', hw⟩ := State.push_of_sp_eq hslot.symm s.pc
  obtain ⟨u, hpop, hspu, hwu⟩ := State.pop_of_sp_eq (s := s'.setPc nnn) hsp'
  refine ⟨_, _, exec_call_of_push hpush, rfl, exec_ret_of_pop hpop, ?_, Fin.ext (hspu.trans hslot), ?_⟩
  · rw [State.setPc_pc, State.setPc_stack, hentry]
  · exact (((hw.trans (onlyWrites_setPc s' nnn)).trans hwu).trans (onlyWrites_setPc u _)).mono (by simp)

end Sys2Proof.Machine

/-! Memory (spec/20_memory.md, spec/43_index_timer_memory.md): canonical memories, the fetch of stored bytes, and a
block store with its block load. -/

namespace Sys2Proof.Machine

/-! ### Canonical memories -/

theorem lookupCell_eq_some {cs : List Host.Cell} (h : cs.Pairwise (fun c c' => c.1 < c'.1)) {a : Nat} {b : Byte} :
    lookupCell cs a = some b ↔ (a, b) ∈ cs := by
  induction cs with
  | nil => simp [lookupCell]
  | cons c cs ih =>
    obtain ⟨hlow, hcs⟩ := List.pairwise_cons.1 h
    obtain ⟨a', b'⟩ := c
    simp only [lookupCell, List.mem_cons, Prod.mk.injEq]
    by_cases ha : a' = a
    · subst ha
      have hnot : (a', b) ∉ cs := fun hm => lt_irrefl a' (hlow (a', b) hm)
      simp [hnot, eq_comm]
    · simp [ha, Ne.symm ha, ih hcs]

section
variable {m : Memory} {a : Nat} {b : Byte}

/-- In canonical form the listed bytes are those that differ from what Reset gives. -/
theorem Memory.mem_cells_iff (h : m.wf = true) : (a, b) ∈ m.cells ↔ m.read a = b ∧ b ≠ m.unlisted a := by
  obtain ⟨hs, hc⟩ := (Memory.wf_iff m).1 h
  rw [← lookupCell_eq_some hs, Memory.read]
  constructor
  · intro hl
    exact ⟨by rw [hl]; rfl, (hc _ ((lookupCell_eq_some hs).1 hl)).2⟩
  · rintro ⟨rfl, hne⟩
    cases hl : lookupCell m.cells a with
    | none => exact absurd (by rw [hl]; rfl) hne
    | some b => rfl

theorem Memory.read_of_outOfRange (h : m.wf = true) (ha : Config.memSize ≤ a) : m.read a = m.unlisted a := by
  by_contra hne
  have hlisted := (Memory.mem_cells_iff h).2 ⟨rfl, hne⟩
  exact Nat.not_lt.2 ha (((Memory.wf_iff m).1 h).2 _ hlisted).1

end

/-- Settles O24: the two lists have the same members, and a list that rises is fixed by its members. -/
theorem canonicalMemoriesThatReadAlikeAreEqual : Obligations.CanonicalMemoriesThatReadAlikeAreEqual := by
  intro m m' hm hm' hfont hread
  have hunlisted (a : Nat) : m.unlisted a = m'.unlisted a := by simp [Memory.unlisted, hfont]
  have hreads (a : Nat) : m.read a = m'.read a := by
    rcases Nat.lt_or_ge a Config.memSize with ha | ha
    · exact hread a ha
    · rw [Memory.read_of_outOfRange hm ha, Memory.read_of_outOfRange hm' ha, hunlisted]
  have hcells : m.cells = m'.cells := by
    have : Std.Asymm (fun c c' : Host.Cell => c.1 < c'.1) := ⟨fun c c' h => lt_asymm h⟩
    refine List.Pairwise.eq_of_mem_iff ((Memory.wf_iff m).1 hm).1 ((Memory.wf_iff m').1 hm').1 ?_
    rintro ⟨a, b⟩
    rw [Memory.mem_cells_iff hm, Memory.mem_cells_iff hm', hreads, hunlisted]
  cases m; cases m'
  simp_all

/-! ### The fetch of stored bytes (R59) -/

theorem fetch_setPc_of_reads {t : State} {p : Word} {hi lo : Nat} (hp : p.toNat + 1 < 4096)
    (hhi : (t.mem.read p.toNat).toNat = hi) (hlo : (t.mem.read (p.toNat + 1)).toNat = lo) :
    ∃ w, fetch (t.setPc p) = some w ∧ w.toNat = hi * 256 + lo := by
  obtain ⟨w, hw, hn⟩ := fetchIsBigEndianAndRangeChecked.1 (t.setPc p) hp
  exact ⟨w, hw, by rw [hn, ← hhi, ← hlo]; rfl⟩

/-- The byte at pc is the high half of the fetched word, the next one its low half (R47). -/
theorem fetch_setPc_halves (t : State) {p : Word} (hp : p.toNat + 1 < 4096) :
    ∃ w, fetch (t.setPc p) = some w ∧ w.toNat / 256 = (t.mem.read p.toNat).toNat ∧
      w.toNat % 256 = (t.mem.read (p.toNat + 1)).toNat := by
  obtain ⟨w, hw, hn⟩ := fetch_setPc_of_reads (t := t) hp rfl rfl
  have hlo := (t.mem.read (p.toNat + 1)).isLt
  exact ⟨w, hw, by omega, by omega⟩

theorem index_add_toNat {s : State} {k : Nat} (h : s.indexAddr k < 4096) :
    (s.i + BitVec.ofNat 16 k).toNat = s.indexAddr k := by
  simp only [State.indexAddr] at h ⊢
  rw [BitVec.toNat_add, BitVec.toNat_ofNat]
  omega

/-- The word fetched at I + k is the two bytes from there. -/
theorem fetch_at_index {s t : State} {k hi lo : Nat} (h : s.indexAddr (k + 1) < 4096)
    (hhi : (t.mem.read (s.indexAddr k)).toNat = hi) (hlo : (t.mem.read (s.indexAddr (k + 1))).toNat = lo) :
    ∃ w, fetch (t.setPc (s.i + BitVec.ofNat 16 k)) = some w ∧ w.toNat = hi * 256 + lo := by
  have hp : (s.i + BitVec.ofNat 16 k).toNat = s.indexAddr k := index_add_toNat (Nat.lt_of_succ_lt h)
  exact fetch_setPc_of_reads (hp ▸ h) (hp ▸ hhi) (hp ▸ hlo)

/-- Settles O25: the bytes that `bcdStoresThreeDigits` and `blockStoreWritesRegistersAndAdvancesIndex` say are stored,
fetched two at a time. -/
theorem storedBytesAreFetched : Obligations.StoredBytesAreFetched := by
  refine fun x s t => ⟨fun hin he digits hdigits => ?_, fun hin he => ?_⟩
  · obtain ⟨t', ht', h0, h1, h2, -⟩ := (bcdStoresThreeDigits x s).1 hin
    obtain rfl : t' = t := Host.Outcome.next.inj (ht'.symm.trans he)
    refine ⟨?_, fetch_at_index (k := 1) hin h1 h2, fun p hp => ?_⟩
    · simpa using fetch_at_index (k := 0) (Nat.lt_of_succ_lt hin) h0 h1
    · obtain ⟨w, hw, hhi, hlo⟩ := fetch_setPc_halves t' hp
      refine ⟨w, hw, fun k hk => ?_⟩
      have hstored : (t'.mem.read (s.indexAddr k)).toNat = digits[k] := by
        subst hdigits
        match k, hk with
        | 0, _ => exact h0
        | 1, _ => exact h1
        | 2, _ => exact h2
      exact ⟨fun e => by rw [hhi, e, hstored], fun e => by rw [hlo, e, hstored]⟩
  · obtain ⟨t', ht', hstored, -⟩ := (blockStoreWritesRegistersAndAdvancesIndex x s).1 hin
    obtain rfl : t' = t := Host.Outcome.next.inj (ht'.symm.trans he)
    refine ⟨fun k j hj hjx => ?_, fun p hp => ?_⟩
    · have hjin : s.indexAddr (k.val + 1) < 4096 := lt_of_le_of_lt (Nat.add_le_add_left (hj ▸ hjx) _) hin
      have hkx : k ≤ x := le_trans (Fin.le_def.2 (by omega)) hjx
      exact fetch_at_index hjin (congrArg BitVec.toNat (hstored k hkx))
        (congrArg BitVec.toNat (hj ▸ hstored j hjx))
    · obtain ⟨w, hw, hhi, hlo⟩ := fetch_setPc_halves t' hp
      exact ⟨w, hw, fun k hk => ⟨fun e => by rw [hhi, e, hstored k hk], fun e => by rw [hlo, e, hstored k hk]⟩⟩

/-! ### A block store, then a block load -/

/-- Settles O60: the load reads the bytes that the store wrote, and writes no register above X. -/
theorem blockStoreThenLoadGivesTheRegistersBack : Obligations.BlockStoreThenLoadGivesTheRegistersBack := by
  intro x s t v hin he
  obtain ⟨t', ht', hstored, -⟩ := (blockStoreWritesRegistersAndAdvancesIndex x s).1 hin
  obtain rfl : t' = t := Host.Outcome.next.inj (ht'.symm.trans he)
  obtain ⟨u, hu, hloaded, -, -, hw⟩ :=
    (blockLoadReadsRegistersAndAdvancesIndex x { t' with i := s.i, v := v }).1 hin
  refine ⟨u, hu, fun k hk => (hloaded k hk).trans (hstored k hk), fun k hk => hw (.reg k) ?_⟩
  simpa [reg_mem_regsThrough] using hk

end Sys2Proof.Machine

/-! Display and input (spec/42_display_input.md): the sprite draw, and the wait for a key along a run. -/

namespace Sys2Proof.Machine

/-! ### DRW (R102) -/

section
variable {x y : RegIdx} {n : Nat} {s t : State}

theorem drawnPixels_inScreen : ∀ p ∈ s.drawnPixels x y n, p.1 < 64 ∧ p.2 < 32 :=
  spritePixels_inScreen _ _ _ _

theorem drawnPixels_nodup (hn : n ≤ 15) : (s.drawnPixels x y n).Nodup :=
  spritePixels_nodup _ _ _ _ (hn.trans (by decide))

theorem mem_drawnPixels {px py : Nat} : (px, py) ∈ s.drawnPixels x y n ↔
    ∃ r < n, ∃ c < 8, (s.mem.read (s.indexAddr r)).getLsbD (7 - c) = true ∧
      px = (s.v[x].toNat + c) % 64 ∧ py = (s.v[y].toNat + r) % 32 := by
  rw [State.drawnPixels, mem_spritePixels]
  simp only [Prod.mk.injEq]
  rfl

/-- The pixels that DRW flips depend on memory, I, V[X] and V[Y] alone. -/
theorem drawnPixels_congr (hmem : t.mem = s.mem) (hi : t.i = s.i) (hx : t.v[x] = s.v[x]) (hy : t.v[y] = s.v[y]) :
    t.drawnPixels x y n = s.drawnPixels x y n := by
  have hread : t.readAtIndex = s.readAtIndex := by
    funext k
    simp only [State.readAtIndex, State.indexAddr, hmem, hi]
  simp only [State.drawnPixels, State.reg, hread, hx, hy]

/-- The state after a DRW that raises no fault. -/
def State.drawn (s : State) (x y : RegIdx) (n : Nat) : State :=
  ((s.setScreen (flipPixels s.fb (s.drawnPixels x y n)).1).setV 15
    (flagByte (flipPixels s.fb (s.drawnPixels x y n)).2)).advance

theorem exec_drw_of_inRange (h : n = 0 ∨ s.indexAddr n ≤ 4096) : exec (.drw x y n) s = .next (s.drawn x y n) := by
  rcases whenInRange_cases (s.indexAddr 0) n s (s.drawn x y n) with ⟨-, e⟩ | ⟨hout, hne, -⟩
  · exact congrArg Host.Outcome.next e
  · simp only [State.indexAddr, Config.memSize] at h hout
    omega

theorem pixelAt_drawn (hn : n ≤ 15) (px py : Nat) : pixelAt (s.drawn x y n).fb px py =
    (pixelAt s.fb px py ^^ decide ((px % 64, py % 32) ∈ s.drawnPixels x y n)) :=
  pixelAt_flipPixels s.fb _ px py drawnPixels_inScreen (drawnPixels_nodup hn)

theorem drawn_flag : (s.drawn x y n).v[(15 : RegIdx)] = flagByte (flipPixels s.fb (s.drawnPixels x y n)).2 := by
  rw [State.drawn, State.advance_v, State.reg_setV, if_pos rfl]

theorem flagByte_eq_one (b : Bool) : flagByte b = 1 ↔ b = true := by cases b <;> decide

/-- A sprite has each pixel once, so a drawn pixel that was set is unset afterwards, and no other. -/
theorem drawn_flag_eq_one (hn : n ≤ 15) : (s.drawn x y n).v[(15 : RegIdx)] = 1 ↔
    ∃ px py, pixelAt s.fb px py = true ∧ pixelAt (s.drawn x y n).fb px py = false := by
  rw [drawn_flag, flagByte_eq_one, flipPixels_collision s.fb _ drawnPixels_inScreen (drawnPixels_nodup hn),
    List.any_eq_true]
  simp only [pixelAt_drawn hn]
  constructor
  · rintro ⟨⟨px, py⟩, hm, hset⟩
    obtain ⟨hx, hy⟩ := drawnPixels_inScreen _ hm
    exact ⟨px, py, hset, by simp [hset, Nat.mod_eq_of_lt hx, Nat.mod_eq_of_lt hy, hm]⟩
  · rintro ⟨px, py, hset, hunset⟩
    exact ⟨(px % 64, py % 32), by simpa [hset] using hunset, (pixelAt_mod s.fb px py).trans hset⟩

theorem onlyWrites_drawn : OnlyWrites s (s.drawn x y n) [.screen, .reg 15, .drawFlag, .pc] :=
  (((onlyWrites_setScreen s _).trans (onlyWrites_setV _ 15 _)).trans (onlyWrites_advance _)).mono (by simp)

end

/-- Settles O48: in range DRW ends in `drawn`, else it is a transfer with a fault. -/
theorem drwXorsTheSprite : Obligations.DrwXorsTheSprite := by
  refine fun x y n s hn => ⟨fun hin => ?_, fun hne hout => ?_⟩
  · refine ⟨_, exec_drw_of_inRange hin, fun px py hpx hpy => ?_, ?_, drawn_flag_eq_one hn, rfl, rfl,
      onlyWrites_drawn⟩
    · rw [pixelAt_drawn hn, Nat.mod_eq_of_lt hpx, Nat.mod_eq_of_lt hpy, ← mem_drawnPixels]
      cases pixelAt s.fb px py <;> simp
    · rw [drawn_flag]
      cases (flipPixels s.fb (s.drawnPixels x y n)).2
      · exact .inl rfl
      · exact .inr rfl
  · obtain ⟨m, rfl⟩ := Nat.exists_eq_succ_of_ne_zero hne
    exact exec_transfer_of_outOfRange rfl (Nat.lt_succ_iff.1 hout)

/-- Settles O49: the second draw flips the same pixels, so that each flip is undone. -/
theorem drawingTwiceRestoresTheScreen : Obligations.DrawingTwiceRestoresTheScreen := by
  intro x y n s t hn hin he hx hy
  obtain rfl : s.drawn x y n = t := Host.Outcome.next.inj ((exec_drw_of_inRange hin).symm.trans he)
  have hsame : (s.drawn x y n).drawnPixels x y n = s.drawnPixels x y n := drawnPixels_congr rfl rfl hx hy
  have hback : ((s.drawn x y n).drawn x y n).fb = s.fb := by
    refine framebuffer_ext _ _ fun px py => ?_
    rw [pixelAt_drawn hn, hsame, pixelAt_drawn hn, Bool.xor_assoc, Bool.xor_self, Bool.xor_false]
  refine ⟨_, exec_drw_of_inRange hin, hback, ?_⟩
  rw [drawn_flag_eq_one hn, hback]
  simp only [and_comm]

/-! ### FX0A along a run (R105, R126) -/

/-- A running core after a Step at an FX0A with no key pressed, with these transactions still waiting. -/
def State.stalled (s : State) (rest : List Txn) (tickDue : Bool) (rnd : Byte) : State :=
  timerTick tickDue (begun { s with pending := rest } rnd)

/-- A Step at an FX0A with no key pressed is the tick alone (R105). -/
theorem step_of_stall {s : State} {rest : List Txn} {tickDue : Bool} {rnd : Byte} {x : RegIdx} {w : Word}
    (hp : s.pending = .step tickDue rnd :: rest) (hs : s.halted = false) (hf : fetch s = some w)
    (hd : decodeWord w = .ok (.ldK x)) (hkey : ∀ k : Fin 16, s.key[k] = false) :
    step s = .next (s.stalled rest tickDue rnd) := by
  have he : exec (.ldK x) (begun { s with pending := rest } rnd) = .next (begun { s with pending := rest } rnd) :=
    exec_ldK_of_no_key ((lowestKey_eq_none s.key).2 hkey)
  have hdue : (tickDue && !(begun { s with pending := rest } rnd).halted) = tickDue := by simp [hs]
  have hserve := serveStep_of_exec (s := { s with pending := rest }) tickDue rnd hs hf hd he
  rw [hdue] at hserve
  exact (step_of_pending hp).trans hserve

section
variable (s : State) (rest : List Txn) (tickDue : Bool) (rnd : Byte)

theorem stalled_dt_toNat :
    (s.stalled rest tickDue rnd).dt.toNat = s.dt.toNat - if tickDue then 1 else 0 :=
  timerTick_dt_toNat tickDue (begun { s with pending := rest } rnd)

theorem stalled_st_toNat :
    (s.stalled rest tickDue rnd).st.toNat = s.st.toNat - if tickDue then 1 else 0 :=
  timerTick_st_toNat tickDue (begun { s with pending := rest } rnd)

theorem onlyWrites_stalled :
    OnlyWrites s (s.stalled rest tickDue rnd) [.dt, .st, .rnd, .configOpen, .reply, .lastDiag, .pending] :=
  (((onlyWrites_pending s rest).trans (onlyWrites_begun _ rnd)).trans (onlyWrites_timerTick tickDue _)).mono
    (by simp)

end

/-- Settles O52, by induction on the waiting Steps: each leaves a state that stalls again. -/
theorem waitForKeyStallsForEver : Obligations.WaitForKeyStallsForEver := by
  intro inputs
  induction inputs with
  | nil => exact fun s rest _ _ hp _ _ _ _ => ⟨s, rfl, hp, rfl, rfl, (OnlyWrites.refl s).mono (by simp)⟩
  | cons input inputs ih =>
    intro s rest x w hp hs hf hd hkey
    obtain ⟨t, hrun, hpend, hdt, hst, hw⟩ := ih (s.stalled _ input.1 input.2) rest x w rfl hs hf hd hkey
    refine ⟨t, (run_succ _ (step_of_stall hp hs hf hd hkey)).trans hrun, hpend, ?_, ?_, ?_⟩
    · rw [hdt, stalled_dt_toNat, List.countP_cons]; omega
    · rw [hst, stalled_st_toNat, List.countP_cons]; omega
    · exact ((onlyWrites_stalled s _ input.1 input.2).trans hw).mono (by simp)

end Sys2Proof.Machine

/-! The invariant (spec/40_flow.md R77 and R84, spec/60_exceptions.md R121 and R122): the reset state has it, and every
step keeps it. -/

namespace Sys2Proof.Machine

/-! ### The reset state (R38) -/

/-- Settles O28: the register files read as their one entry, and the font is computed. -/
theorem resetStateIsTheTabledOne : Obligations.ResetStateIsTheTabledOne := by
  refine ⟨rfl, ?v, rfl, rfl, rfl, rfl, rfl, rfl, rfl, ?keyAndStack, pixelAt_blankScreen, ?above, ?bytes, ?font⟩
  case v => exact fun r => Vector.getElem_replicate r.isLt
  case keyAndStack => exact fun k => ⟨Vector.getElem_replicate k.isLt, Vector.getElem_replicate k.isLt⟩
  case above => exact fun a h => Memory.read_of_no_cells_above h
  case bytes => decide
  case font => decide

/-- The state after Reset meets the invariant, whatever the parameters. -/
theorem inv_afterReset (font : Vector Byte 80) (legacy indexOvf : Bool) :
    (State.afterReset font legacy indexOvf).Inv where
  memory := rfl
  pcBound := (by decide : 0x200 ≤ 0x10FE)
  returns := fun k hk => absurd hk (Nat.not_lt_zero k.val)
  code := ⟨Nat.zero_le _, nofun, fun hcode => absurd rfl hcode⟩
  diag := rfl
  config := fun _ => rfl

/-- Settles O14: State.reset is an `afterReset`. -/
theorem resetMeetsTheInvariant : Obligations.ResetMeetsTheInvariant := inv_afterReset _ _ _

section
variable {i : Instr} {s t : State} {tickDue : Bool} {rnd : Byte}

/-! ### What the invariant reads -/

/-- All that the invariant reads of a state. -/
def State.guarded (s : State) : Memory × Word × Vector Word 16 × Fin 17 × Bool × BitVec 3 × Diag × Bool :=
  (s.mem, s.pc, s.stack, s.sp, s.halted, s.faultCode, s.lastDiag, s.configOpen)

theorem State.Inv.of_guarded_eq (h : s.Inv) (e : t.guarded = s.guarded) : t.Inv := by
  simp only [State.guarded, Prod.mk.injEq] at e
  obtain ⟨hmem, hpc, hstack, hsp, hhalted, hcode, hdiag, hopen⟩ := e
  exact ⟨hmem ▸ h.memory, hpc ▸ h.pcBound, hsp ▸ hstack ▸ h.returns, hcode ▸ hhalted ▸ h.code,
    hdiag ▸ hhalted ▸ h.diag, hopen ▸ hhalted ▸ h.config⟩

theorem StepIssued.guarded_eq {s0 : State} (h : StepIssued s tickDue rnd s0) : s0.guarded = s.guarded := by
  rcases h with ⟨rest, -, rfl⟩ | ⟨-, -, -, rfl⟩ <;> rfl

theorem State.Inv.timerTick (h : s.Inv) (due : Bool) : (timerTick due s).Inv := h.of_guarded_eq rfl

/-! ### Faults and the begun Step -/

theorem FaultCause.code_bounds (c : FaultCause) : c.code.toNat ≤ 5 ∧ c.code ≠ 0 := by
  cases c <;> decide

/-- A fault raised after SetConfig has closed keeps the invariant. -/
theorem State.Inv.raiseFault (h : s.Inv) (hclosed : s.configOpen = false) (c : FaultCause) (info : Nat) :
    (raiseFault c info s).Inv where
  memory := h.memory
  pcBound := h.pcBound
  returns := h.returns
  code := ⟨c.code_bounds.1, fun _ => c.code_bounds.2, fun _ => rfl⟩
  diag := rfl
  config := fun hopen => absurd (hclosed.symm.trans hopen) Bool.false_ne_true

theorem State.Inv.begun (h : s.Inv) (hs : s.halted = false) (rnd : Byte) : (begun s rnd).Inv where
  memory := h.memory
  pcBound := h.pcBound
  returns := h.returns
  code := h.code
  diag := hs.symm
  config := nofun

/-! ### The pc and the return addresses -/

/-- The address of a fetched word, and so a pc that CALL pushes, is at most 0xFFE (R47, R77). -/
theorem pc_le_of_fetch {w : Word} (h : fetch s = some w) : s.pc.toNat ≤ 0xFFE := by
  by_contra hpc
  rw [fetch_of_outOfRange (Nat.succ_le_succ (Nat.not_le.1 hpc))] at h
  cases h

theorem word_add_toNat_le {a b : Word} {m n : Nat} (ha : a.toNat ≤ m) (hb : b.toNat ≤ n) :
    (a + b).toNat ≤ m + n := by
  rw [BitVec.toNat_add]
  exact (Nat.mod_le _ _).trans (Nat.add_le_add ha hb)

theorem word_ite_toNat_le (p : Prop) [Decidable p] {a b : Word} {m : Nat} (ha : a.toNat ≤ m)
    (hb : b.toNat ≤ m) : (if p then a else b).toNat ≤ m := by
  split
  · exact ha
  · exact hb

/-- From a fetched pc the default update and a skip stay below JP V0's highest target. -/
theorem pc_add_le (hpc : s.pc.toNat ≤ 0xFFE) {d : Word} (hd : d.toNat ≤ 4) : (s.pc + d).toNat ≤ 0x10FE :=
  (word_add_toNat_le hpc hd).trans (by decide)

/-- A well-formed instruction that completes leaves pc at 0xFFF + 0xFF or below (R22, R84). -/
theorem exec_pc_le (hwf : i.wf = true) (h : s.Inv) (hs : s.halted = false) (hpc : s.pc.toNat ≤ 0xFFE)
    (he : exec i s = .next t) (ht : t.halted = false) : t.pc.toNat ≤ 0x10FE := by
  have hupdate := (pcIsUpdatedAsListed.2 i s t hs he).2 ht
  cases i
  case jp nnn | call nnn =>
    have hnnn : nnn.toNat ≤ 0xFFF := of_decide_eq_true hwf
    exact (congrArg BitVec.toNat hupdate).trans_le (hnnn.trans (by decide))
  case jpV0 nnn =>
    have hnnn : nnn.toNat ≤ 0xFFF := of_decide_eq_true hwf
    have hv := s.v[0].isLt
    simp only at hupdate
    omega
  case ret =>
    obtain ⟨k, hk, hret⟩ := hupdate
    rw [hret]
    exact (word_add_toNat_le (h.returns k (by omega)) (Nat.le_refl 2)).trans (by decide)
  case skp | sknp =>
    obtain ⟨k, -, hskip⟩ := hupdate
    exact hskip ▸ pc_add_le hpc (word_ite_toNat_le _ (by decide) (by decide))
  case seImm | sneImm | seReg | sneReg =>
    exact hupdate ▸ pc_add_le hpc (word_ite_toNat_le _ (by decide) (by decide))
  case ldK =>
    exact hupdate ▸ word_ite_toNat_le _ (pc_add_le hpc (by decide)) (hpc.trans (by decide))
  all_goals exact hupdate ▸ pc_add_le hpc (by decide)

/-- The return addresses in use stay fetchable: CALL adds its own address, RET drops one (R77, R79). -/
theorem exec_keeps_returns (hpc : s.pc.toNat ≤ 0xFFE)
    (hr : ∀ k : Fin 16, k.val < s.sp.val → s.stack[k].toNat ≤ 0xFFE) (he : exec i s = .next t) :
    ∀ k : Fin 16, k.val < t.sp.val → t.stack[k].toNat ≤ 0xFFE := by
  by_cases hcall : ∃ nnn, i = .call nnn
  · obtain ⟨nnn, rfl⟩ := hcall
    rcases s.push_cases s.pc with ⟨-, e⟩ | ⟨hsp, e⟩
    · rw [exec_call_of_full e] at he
      cases he; exact hr
    · rw [exec_call_of_push e] at he
      cases he
      intro k hk
      simp only [State.setPc_stack, State.setPc_sp, Fin.getElem_fin, Vector.getElem_set] at hk ⊢
      split
      · exact hpc
      · exact hr k (by omega)
  by_cases hret : i = .ret
  · subst hret
    rcases s.pop_cases with ⟨-, e⟩ | ⟨hsp, e⟩
    · rw [exec_ret_of_empty e] at he
      cases he; exact hr
    · rw [exec_ret_of_pop e] at he
      cases he
      exact fun k hk => hr k (lt_of_lt_of_le hk (Nat.sub_le _ _))
  · have hcall' : ∀ nnn, i ≠ .call nnn := fun nnn e => hcall ⟨nnn, e⟩
    intro k hk
    rw [exec_stack he hcall']
    exact hr k (exec_sp he hcall' hret ▸ hk)

/-! ### Instructions, transactions and steps -/

/-- A well-formed instruction at a fetched pc keeps the invariant. -/
theorem exec_keeps_inv (hwf : i.wf = true) (h : s.Inv) (hs : s.halted = false) (hclosed : s.configOpen = false)
    (hpc : s.pc.toNat ≤ 0xFFE) (he : exec i s = .next t) : t.Inv := by
  rcases exec_fault_cases he with ⟨c, info, rfl⟩ | ⟨hhalted, hcode, hdiag⟩
  · exact h.raiseFault hclosed c info
  · exact {
      memory := exec_keeps_memory_wf he h.memory
      pcBound := exec_pc_le hwf h hs hpc he (hhalted.trans hs)
      returns := exec_keeps_returns hpc h.returns he
      code := by rw [hcode, hhalted]; exact h.code
      diag := by rw [hdiag, hhalted]; exact h.diag
      config := fun _ => hhalted.trans hs }

theorem serveStep_keeps_inv (h : s.Inv) (he : serveStep tickDue rnd s = .next t) : t.Inv := by
  rcases serveStep_cases he with
    ⟨hs, rfl⟩ | ⟨hs, -, rfl⟩ | ⟨w, e, hs, -, -, rfl⟩ | ⟨w, i, u, hs, hf, hd, hu, rfl⟩
  · exact ⟨h.memory, h.pcBound, h.returns, h.code, hs.symm, h.config⟩
  · exact (h.begun hs rnd).raiseFault rfl _ _
  · refine State.Inv.timerTick ?_ tickDue
    exact ⟨h.memory, h.pcBound, h.returns, h.code, hs.symm, nofun⟩
  · refine State.Inv.timerTick ?_ _
    exact exec_keeps_inv (wf_and_encode_of_decodeWord hd).1 (h.begun hs rnd) hs rfl (pc_le_of_fetch hf) hu

theorem serve_keeps_inv {x : Txn} (h : s.Inv) (he : serve x s = .next t) : t.Inv := by
  cases x <;> simp only [serve] at he
  case step => exact serveStep_keeps_inv h he
  case reset =>
    cases he
    exact (inv_afterReset s.mem.font s.legacy s.indexOvf).of_guarded_eq rfl
  case load bytes =>
    unfold serveLoad at he
    split at he <;> cases he
    · exact h.of_guarded_eq rfl
    · exact ⟨Memory.wf_writeList _ _ _ h.memory, h.pcBound, h.returns, h.code, h.diag, h.config⟩
  case setConfig =>
    unfold serveSetConfig at he
    split at he <;> cases he
    exact h.of_guarded_eq rfl
  case setKey =>
    unfold serveSetKey at he
    split at he <;> cases he
    exact h.of_guarded_eq rfl
  all_goals cases he; exact h.of_guarded_eq rfl

end

/-- Settles O15: the invariant reads neither the queue nor the host's counter, and serving a Step or another
transaction keeps it. -/
theorem everyStepKeepsTheInvariant : Obligations.EveryStepKeepsTheInvariant := by
  intro s t h he
  rcases step_cases s with ⟨tickDue, rnd, s0, hi⟩ | ⟨x, rest, -, -, hserve⟩
  · exact serveStep_keeps_inv (h.of_guarded_eq hi.guarded_eq) (hi.step_eq.symm.trans he)
  · exact serve_keeps_inv (h.of_guarded_eq (t := { s with pending := rest }) rfl) (hserve.symm.trans he)

end Sys2Proof.Machine
